-- ==== Sys2Proof/Word.lean ====
section
/-! DEFINITION. The machine word of CORE, the signed 64-bit range I64 and the address range Addr (00_scope.md R5, R6, R11). -/

namespace Sys2Proof

/-- A memory word: a signed 64-bit integer in two's complement (R5). Its value is `w.toInt`. -/
abbrev Word := BitVec 64

/-- `ADDR_MAX = 2^63 - 1`, the greatest address (R6); it is also the greatest word. -/
def addrMax : Nat := 9223372036854775807

/-- The greatest value of I64, `2^63 - 1` (R5). -/
def i64Max : Int := 9223372036854775807

/-- The least value of I64, `-2^63` (R5). -/
def i64Min : Int := -9223372036854775808

/-- A value lies in I64 (R5). -/
abbrev InI64 (v : Int) : Prop := i64Min ≤ v ∧ v ≤ i64Max

/-- `wrap64(v) = ((v + 2^63) mod 2^64) - 2^63` (R11). -/
def wrap64 (v : Int) : Int := (v + 9223372036854775808) % 18446744073709551616 - 9223372036854775808

/-- The word that holds an integer, reduced modulo 2^64. -/
def Word.ofInt (v : Int) : Word := BitVec.ofInt 64 v

/-- The word that holds a natural number, reduced modulo 2^64. -/
def Word.ofNat (n : Nat) : Word := BitVec.ofNat 64 n

end Sys2Proof
end

