-- ==== Sys2Proof/Config.lean ====
section
/-! DEFINITION. The parameters a model of CORE takes (00_scope.md R7, R8, R10). They are fixed for a machine: `State` carries them and nothing changes them (log entry 1). CORE leaves no value free, so there is no free value here (93_implementation_defined.md). -/

namespace Sys2Proof

/-- `OVERFLOW_POLICY` (R7). -/
inductive OverflowPolicy where
  | fault
  | wrap
  deriving DecidableEq, Repr

/-- `IMM_DEST_POLICY` (R8). -/
inductive ImmDestPolicy where
  | fault
  | writeSlot
  deriving DecidableEq, Repr

/-- `ENABLED_OPCODES`, a subset of the ten opcodes (R10). -/
structure OpcodeSet where
  add : Bool
  mul : Bool
  inp : Bool
  out : Bool
  jnz : Bool
  jz  : Bool
  lt  : Bool
  eq  : Bool
  arb : Bool
  hlt : Bool
  deriving DecidableEq, Repr

/-- `ENABLED_MODES`, a subset of the three modes (R10). -/
structure ModeSet where
  position  : Bool
  immediate : Bool
  relative  : Bool
  deriving DecidableEq, Repr

/-- All the parameters together. -/
structure Config where
  overflow : OverflowPolicy
  immDest  : ImmDestPolicy
  opcodes  : OpcodeSet
  modes    : ModeSet
  deriving DecidableEq, Repr

/-- All ten opcodes (the default of R10). -/
def OpcodeSet.all : OpcodeSet :=
  { add := true, mul := true, inp := true, out := true, jnz := true, jz := true,
    lt := true, eq := true, arb := true, hlt := true }

/-- All three modes (the default of R10). -/
def ModeSet.all : ModeSet := { position := true, immediate := true, relative := true }

/-- The defaults of R7, R8 and R10. -/
def Config.default : Config :=
  { overflow := .fault, immDest := .fault, opcodes := OpcodeSet.all, modes := ModeSet.all }

end Sys2Proof
end

