-- ==== Sys2Proof/Syntax.lean ====
section
/-! DEFINITION. The ten instructions with their parameters (30_encoding.md R46 to R53), one constructor of `Instr` per row of the opcode table. A parameter keeps whatever mode digit its word has, 3 to 9 too, because the resolver checks the digits one parameter at a time (40_execution_cycle.md R72). -/

namespace Sys2Proof

/-- A parameter mode (R53). The digits 3 to 9 name no mode: `undefined k` is the digit `3 + k`. -/
inductive Mode where
  | position
  | immediate
  | relative
  | undefined (k : Fin 7)
  deriving DecidableEq, Repr

/-- The decimal digit of a mode (R53). -/
def Mode.digit : Mode → Nat
  | .position => 0
  | .immediate => 1
  | .relative => 2
  | .undefined k => k.val + 3

/-- The mode a decimal digit names (R53). -/
def Mode.ofDigit : Nat → Mode
  | 0 => .position
  | 1 => .immediate
  | 2 => .relative
  | d + 3 => .undefined (Fin.ofNat 7 d)

/-- What an instruction does with a parameter: read the word at its resolved address, or write there (R51). -/
inductive Role where
  | source
  | destination
  deriving DecidableEq, Repr

/-- A parameter: its mode digit from the instruction word and its own word (R52). -/
structure Param where
  mode : Mode
  word : Word
  deriving DecidableEq, Repr

/-- A parameter index, 0 to 2 (00_scope.md R13). -/
abbrev ParamIndex := Fin 3

/-- The ten operation selectors (R51). -/
inductive Opcode where
  | add
  | mul
  | inp
  | out
  | jnz
  | jz
  | lt
  | eq
  | arb
  | hlt
  deriving DecidableEq, Repr

/-- The number in the low two digits of an instruction word (R51). -/
def Opcode.number : Opcode → Nat
  | .add => 1
  | .mul => 2
  | .inp => 3
  | .out => 4
  | .jnz => 5
  | .jz => 6
  | .lt => 7
  | .eq => 8
  | .arb => 9
  | .hlt => 99

/-- The operation a two-digit number selects, if any (R55). -/
def Opcode.ofNumber : Nat → Option Opcode
  | 1 => some .add
  | 2 => some .mul
  | 3 => some .inp
  | 4 => some .out
  | 5 => some .jnz
  | 6 => some .jz
  | 7 => some .lt
  | 8 => some .eq
  | 9 => some .arb
  | 99 => some .hlt
  | _ => none

/-- The roles of an instruction's parameters, in index order (R51). -/
def Opcode.roles : Opcode → List (ParamIndex × Role)
  | .add => [(0, .source), (1, .source), (2, .destination)]
  | .mul => [(0, .source), (1, .source), (2, .destination)]
  | .inp => [(0, .destination)]
  | .out => [(0, .source)]
  | .jnz => [(0, .source), (1, .source)]
  | .jz => [(0, .source), (1, .source)]
  | .lt => [(0, .source), (1, .source), (2, .destination)]
  | .eq => [(0, .source), (1, .source), (2, .destination)]
  | .arb => [(0, .source)]
  | .hlt => []

/-- The number of parameters, `nparams(op)` (R51). -/
def Opcode.nparams : Opcode → Nat
  | .add => 3
  | .mul => 3
  | .inp => 1
  | .out => 1
  | .jnz => 2
  | .jz => 2
  | .lt => 3
  | .eq => 3
  | .arb => 1
  | .hlt => 0

/-- The length in words, `1 + n` (R46, R57). -/
def Opcode.length (op : Opcode) : Nat := 1 + op.nparams

/-- An instruction with its parameters in index order (R51). -/
inductive Instr where
  | add (a b dst : Param)
  | mul (a b dst : Param)
  | inp (dst : Param)
  | out (a : Param)
  | jnz (a target : Param)
  | jz (a target : Param)
  | lt (a b dst : Param)
  | eq (a b dst : Param)
  | arb (a : Param)
  | hlt
  deriving DecidableEq, Repr

/-- The operation of an instruction. -/
def Instr.opcode : Instr → Opcode
  | .add _ _ _ => .add
  | .mul _ _ _ => .mul
  | .inp _ => .inp
  | .out _ => .out
  | .jnz _ _ => .jnz
  | .jz _ _ => .jz
  | .lt _ _ _ => .lt
  | .eq _ _ _ => .eq
  | .arb _ => .arb
  | .hlt => .hlt

/-- The parameters of an instruction, in index order, each with its index and its role (R51). -/
def Instr.params : Instr → List (ParamIndex × Role × Param)
  | .add a b dst => [(0, .source, a), (1, .source, b), (2, .destination, dst)]
  | .mul a b dst => [(0, .source, a), (1, .source, b), (2, .destination, dst)]
  | .inp dst => [(0, .destination, dst)]
  | .out a => [(0, .source, a)]
  | .jnz a target => [(0, .source, a), (1, .source, target)]
  | .jz a target => [(0, .source, a), (1, .source, target)]
  | .lt a b dst => [(0, .source, a), (1, .source, b), (2, .destination, dst)]
  | .eq a b dst => [(0, .source, a), (1, .source, b), (2, .destination, dst)]
  | .arb a => [(0, .source, a)]
  | .hlt => []

end Sys2Proof
end

