-- ==== Sys2Proof/WellFormed.lean ====
section
/-! DEFINITION. Which instructions a configuration makes legal: the opcode is enabled (30_encoding.md R55) and every mode digit is one its parameter accepts (R54). -/

namespace Sys2Proof

/-- The opcode is in `ENABLED_OPCODES` (00_scope.md R10). -/
def Config.opcodeEnabled (cfg : Config) : Opcode → Bool
  | .add => cfg.opcodes.add
  | .mul => cfg.opcodes.mul
  | .inp => cfg.opcodes.inp
  | .out => cfg.opcodes.out
  | .jnz => cfg.opcodes.jnz
  | .jz => cfg.opcodes.jz
  | .lt => cfg.opcodes.lt
  | .eq => cfg.opcodes.eq
  | .arb => cfg.opcodes.arb
  | .hlt => cfg.opcodes.hlt

/-- The mode is in `{0, 1, 2} ∩ ENABLED_MODES` (00_scope.md R10, 40_execution_cycle.md R65). -/
def Config.modeEnabled (cfg : Config) : Mode → Bool
  | .position => cfg.modes.position
  | .immediate => cfg.modes.immediate
  | .relative => cfg.modes.relative
  | .undefined _ => false

/-- A destination with mode 1 under `IMM_DEST_POLICY = Fault` (R54, 40_execution_cycle.md R66). -/
def Config.immDestForbidden (cfg : Config) (role : Role) (m : Mode) : Bool :=
  role == .destination && m == .immediate && cfg.immDest == .fault

/-- The modes a parameter of a given role accepts (R54). -/
def Config.modeLegal (cfg : Config) (role : Role) (m : Mode) : Bool :=
  cfg.modeEnabled m && !cfg.immDestForbidden role m

/-- An instruction the configuration makes legal (R54, R55). -/
def Instr.wellFormed (cfg : Config) (i : Instr) : Bool :=
  cfg.opcodeEnabled i.opcode && i.params.all fun (_, role, p) => cfg.modeLegal role p.mode

end Sys2Proof
end

