-- ==== Sys2Proof/Decode.lean ====
section
/-! DEFINITION. The fetch/decode unit's reading of instruction words (30_encoding.md R46 to R58, 40_execution_cycle.md R64), total on every list of words, and after it the encoder (R58, R61) and the pseudo-instructions (R60). -/

namespace Sys2Proof

/-- Why a list of words holds no instruction. -/
inductive DecodeError where
  /-- A negative word, or an opcode that is unmapped or not enabled (R48, R55). -/
  | unknownOpcode (w : Word)
  /-- The list ends before the instruction does. A step never meets this: it fetches four words, the longest instruction (log entry 6). -/
  | truncated
  deriving DecidableEq, Repr

/-- The weight `10^(i+2)` of the mode digit of parameter `i` (R47). -/
def modeWeight : ParamIndex → Nat
  | 0 => 100
  | 1 => 1000
  | 2 => 10000

/-- `digit(w, i + 2)`, the mode digit of parameter `i` of a non-negative word (R47, 00_scope.md R11). -/
def modeDigit (w : Word) (i : ParamIndex) : Nat := w.toNat / modeWeight i % 10

/-- The mode of parameter `i` (R47, R53). -/
def modeOf (w : Word) (i : ParamIndex) : Mode := Mode.ofDigit (modeDigit w i)

/-- The opcode of an instruction word: none where the word is negative, or `w mod 100` is no enabled opcode (R47, R48, R55). -/
def decodeOpcode (cfg : Config) (w : Word) : Option Opcode :=
  if w.toInt < 0 then none
  else
    match Opcode.ofNumber (w.toNat % 100) with
    | none => none
    | some op => if cfg.opcodeEnabled op then some op else none

/-- What a decoder answers: an instruction with the words after it, or why there is none. -/
abbrev Decoded := Except DecodeError (Instr × List Word)

/-- Format F1: one parameter word (R50). -/
def decodeF1 (mk : Param → Instr) (w : Word) : List Word → Decoded
  | p0 :: rest => .ok (mk ⟨modeOf w 0, p0⟩, rest)
  | [] => .error .truncated

/-- Format F2: two parameter words (R50). -/
def decodeF2 (mk : Param → Param → Instr) (w : Word) : List Word → Decoded
  | p0 :: p1 :: rest => .ok (mk ⟨modeOf w 0, p0⟩ ⟨modeOf w 1, p1⟩, rest)
  | [_] => .error .truncated
  | [] => .error .truncated

/-- Format F3: three parameter words (R50). -/
def decodeF3 (mk : Param → Param → Param → Instr) (w : Word) : List Word → Decoded
  | p0 :: p1 :: p2 :: rest =>
    .ok (mk ⟨modeOf w 0, p0⟩ ⟨modeOf w 1, p1⟩ ⟨modeOf w 2, p2⟩, rest)
  | [_, _] => .error .truncated
  | [_] => .error .truncated
  | [] => .error .truncated

/-- The parameter words of an instruction whose word is `w` (R46, R50, R51). -/
def decodeParams (op : Opcode) (w : Word) (ws : List Word) : Decoded :=
  match op with
  | .add => decodeF3 .add w ws
  | .mul => decodeF3 .mul w ws
  | .inp => decodeF1 .inp w ws
  | .out => decodeF1 .out w ws
  | .jnz => decodeF2 .jnz w ws
  | .jz => decodeF2 .jz w ws
  | .lt => decodeF3 .lt w ws
  | .eq => decodeF3 .eq w ws
  | .arb => decodeF1 .arb w ws
  | .hlt => .ok (.hlt, ws)

/-- Read one instruction off the front of a list of words, and answer it with the words after it (R46, R64). -/
def decode (cfg : Config) : List Word → Decoded
  | [] => .error .truncated
  | w :: ws =>
    match decodeOpcode cfg w with
    | none => .error (.unknownOpcode w)
    | some op => decodeParams op w ws

/-- The three things an instruction word can be (R56, R58). -/
inductive WordClass where
  | legal (op : Opcode)
  | unknownOpcode
  | invalidMode (i : ParamIndex) (digit : Nat)
  deriving DecidableEq, Repr

/-- The first parameter whose mode digit its role does not accept (R54). -/
def firstInvalidMode (cfg : Config) (w : Word) : List (ParamIndex × Role) → Option ParamIndex
  | [] => none
  | (i, role) :: rest =>
    if cfg.modeLegal role (modeOf w i) then firstInvalidMode cfg w rest else some i

/-- The class of an instruction word on its own (R56, R58). -/
def classifyWord (cfg : Config) (w : Word) : WordClass :=
  match decodeOpcode cfg w with
  | none => .unknownOpcode
  | some op =>
    match firstInvalidMode cfg w op.roles with
    | none => .legal op
    | some i => .invalidMode i (modeDigit w i)

/-! The encoder. -/

/-- The canonical word `op + Σ m_i * 10^(i+2)`, as a number (R58). -/
def Instr.canonical (i : Instr) : Nat :=
  i.opcode.number + (i.params.map fun (k, _, p) => p.mode.digit * modeWeight k).sum

/-- The words `[W, p_0, ..., p_{n-1}]` of an instruction (R61). -/
def encode (i : Instr) : List Word :=
  Word.ofNat i.canonical :: i.params.map fun (_, _, p) => p.word

/-- `JMP t` is `JNZ #1, t` (R60). -/
def pseudoJmp (t : Param) : Instr := .jnz ⟨.immediate, Word.ofNat 1⟩ t

/-- `MOV s, d` is `ADD s, #0, d` (R60). -/
def pseudoMov (s d : Param) : Instr := .add s ⟨.immediate, Word.ofNat 0⟩ d

/-! The host's question about one row of the opcode table. -/

/-- Four words, the longest instruction, from a number whose bits 0 to 63 are the first word, 64 to 127 the second, and so on; bits from `nbits` up are 0 (log entry 16). -/
def tableWords (nbits w : Nat) : List Word :=
  let v := w % 2 ^ nbits
  [Word.ofNat v, Word.ofNat (v / 18446744073709551616),
    Word.ofNat (v / 18446744073709551616 / 18446744073709551616),
    Word.ofNat (v / 18446744073709551616 / 18446744073709551616 / 18446744073709551616)]

/-- The instruction the decoder reads from those words, under the default parameters. -/
def decodeTableWord (nbits w : Nat) : Option Instr :=
  match decode Config.default (tableWords nbits w) with
  | .ok (i, _) => some i
  | .error _ => none

end Sys2Proof
end

