-- ==== Sys2Proof/Machine/State.lean ====
section
/-! DEFINITION. The state of one engine instance (10_state.md R15), as plain data, and its value at reset (R26). -/

namespace Sys2Proof.Machine

/-- The five faults (60_exceptions.md R106). -/
inductive FaultCode where
  | negativeAddress
  | invalidMode
  | unknownOpcode
  | arithmeticOverflow
  | addressOverflow
  deriving DecidableEq, Repr

/-- The number of a fault code (60_exceptions.md R106). -/
def FaultCode.number : FaultCode → Nat
  | .negativeAddress => 1
  | .invalidMode => 2
  | .unknownOpcode => 3
  | .arithmeticOverflow => 4
  | .addressOverflow => 5

/-- What a `raise` in a step names (00_scope.md R12): the fault, the parameter it concerns, and the offending value in ℤ. -/
structure Raise where
  code  : FaultCode
  param : Option (Fin 3)
  value : Int
  deriving DecidableEq, Repr

/-- The fault record `(code, fpc, word, param, value)` (10_state.md R20). -/
structure FaultRecord where
  code  : FaultCode
  fpc   : Nat
  word  : Word
  param : Option (Fin 3)
  value : Int
  deriving DecidableEq, Repr

/-- The engine status (10_state.md R19). -/
inductive Status where
  | running
  | waitingForInput
  | halted
  | faulted
  deriving DecidableEq, Repr

/-- A memory: pairs of an address and the word there, addresses strictly rising, no word 0, which is what an unlisted address reads as (10_state.md R23, 20_memory.md R29; log entry 3). -/
abbrev Memory := List (Nat × Word)

/-- The state of one engine instance: `(M, pc, rb, status, fault, IQ, OQ)` of 10_state.md R15, and with it the parameters, which nothing changes (log entry 1). -/
structure State where
  config : Config
  mem    : Memory
  pc     : Nat
  rb     : Word
  status : Status
  fault  : Option FaultRecord
  iq     : List Word
  oq     : List Word
  deriving DecidableEq, Repr

/-- The state after reset with the empty program image and the default parameters (10_state.md R26, 70_reset_and_hazards.md R121; log entry 8). -/
def State.reset : State :=
  { config := Config.default
    mem := []
    pc := 0
    rb := 0#64
    status := .running
    fault := none
    iq := []
    oq := [] }

/-- Why a step stops without a next state. The five faults of CORE are none of these: each is a next state whose status is Faulted (60_exceptions.md R107). -/
inductive Fault where
  /-- Raised by `step` alone, where the pc lies above `2^63 - 1`, an address that does not exist (00_scope.md R6). The pc of every reachable state lies in Addr (10_state.md R17), so no run meets it. Safe. -/
  | fetchOutsideAddr
  deriving DecidableEq, Repr

/-- Why a step has no meaning in the model. -/
inductive Refusal where
  /-- An instruction the model gives no meaning yet, by its mnemonic. Raised by an arm of `exec`; no arm raises it any more. Safe. -/
  | notModelled (mnemonic : String)
  deriving DecidableEq, Repr

end Sys2Proof.Machine
end

