-- ==== Sys2Proof/Machine/Ops.lean ====
section
/-! DEFINITION. The named operations over memory, registers and queues, the entry of a fault (60_exceptions.md R107) and the fetch. CORE has no return from a fault: Faulted is left only by constructing the instance again (R111), which is `State.construct`. -/

namespace Sys2Proof.Machine

/-- The outcome of a step of this machine. -/
abbrev Result := Host.Outcome State Fault Refusal

/-! Memory (20_memory.md). -/

/-- The word at an address; an address never written holds 0 (20_memory.md R29, R30). -/
def Memory.read : Memory → Nat → Word
  | [], _ => 0#64
  | (b, v) :: m, a => if a = b then v else Memory.read m a

/-- A memory without any entry for an address. -/
def Memory.erase (m : Memory) (a : Nat) : Memory := m.filter fun c => c.1 != a

/-- A new entry at its place in address order. -/
def Memory.insert : Memory → Nat → Word → Memory
  | [], a, v => [(a, v)]
  | (b, u) :: m, a, v => if a < b then (a, v) :: (b, u) :: m else (b, u) :: Memory.insert m a v

/-- Store a word at an address and nowhere else (20_memory.md R31). Storing 0 leaves the address unlisted. -/
def Memory.write (m : Memory) (a : Nat) (v : Word) : Memory :=
  if v = 0#64 then m.erase a else (m.erase a).insert a v

/-- The canonical form: addresses strictly rising, all in Addr, no entry that holds 0. -/
abbrev Memory.wf (m : Memory) : Prop :=
  m.Pairwise (fun x y => x.1 < y.1) ∧ ∀ c ∈ m, c.1 ≤ addrMax ∧ c.2 ≠ 0#64

/-- The entries of a program image that starts at an address (20_memory.md R36). -/
def Memory.ofImage : Nat → List Word → Memory
  | _, [] => []
  | a, v :: vs => if v = 0#64 then Memory.ofImage (a + 1) vs else (a, v) :: Memory.ofImage (a + 1) vs

/-- The check every address passes: below 0 is `NegativeAddress`, above `2^63 - 1` is `AddressOverflow` (20_memory.md R30, R31, 40_execution_cycle.md R71). -/
def checkAddress (param : Option ParamIndex) (a : Int) : Except Raise Nat :=
  if a < 0 then .error ⟨.negativeAddress, param, a⟩
  else if (addrMax : Int) < a then .error ⟨.addressOverflow, param, a⟩
  else .ok a.toNat

/-- `MemRead(a, 1)` on a mathematical integer (20_memory.md R30). -/
def memRead (m : Memory) (a : Int) : Except Raise Word :=
  match checkAddress none a with
  | .error e => .error e
  | .ok n => .ok (m.read n)

/-- `MemWrite(a, 1, v)` on a mathematical integer (20_memory.md R31). -/
def memWrite (m : Memory) (a : Int) (v : Word) : Except Raise Memory :=
  match checkAddress none a with
  | .error e => .error e
  | .ok n => .ok (m.write n v)

/-! The commits of a step (40_execution_cycle.md R72). -/

/-- Store a word to memory. -/
def State.store (s : State) (a : Nat) (v : Word) : State := { s with mem := s.mem.write a v }

/-- Write the relative base (10_state.md R18). -/
def State.setRb (s : State) (v : Word) : State := { s with rb := v }

/-- Append one word to the output sequence (10_state.md R22). -/
def State.emit (s : State) (v : Word) : State := { s with oq := s.oq ++ [v] }

/-- Remove the front of the input channel, leaving the given rest (10_state.md R21). -/
def State.setInput (s : State) (rest : List Word) : State := { s with iq := rest }

/-- Complete an instruction: the pc moves and the status is Running (40_execution_cycle.md R74). -/
def State.retire (s : State) (next : Nat) : State := { s with pc := next, status := .running }

/-- Suspend at an input instruction: the status and nothing else (42_io.md R83, 60_exceptions.md R109). -/
def State.suspend (s : State) : State := { s with status := .waitingForInput }

/-- Halt: the status and nothing else (45_base_halt.md R91). -/
def State.halt (s : State) : State := { s with status := .halted }

/-- Take a fault: the status and the record, and nothing else (60_exceptions.md R107). -/
def State.raise (s : State) (e : Raise) : State :=
  { s with
    status := .faulted
    fault := some
      { code := e.code, fpc := s.pc, word := s.mem.read s.pc, param := e.param, value := e.value } }

/-- What an instruction comes to: its committed state, or the fault it raised with none of its effect (40_execution_cycle.md R72). -/
def State.conclude (s : State) : Except Raise State → Result
  | .ok t => .next t
  | .error e => .next (s.raise e)

/-- `fallthrough()` of an instruction with `n` parameters: `pc + 1 + n`, or `AddressOverflow` (40_execution_cycle.md R74). -/
def State.fallthrough (s : State) (n : Nat) : Except Raise Nat :=
  let next := s.pc + 1 + n
  if addrMax < next then .error ⟨.addressOverflow, none, (next : Int)⟩ else .ok next

/-! Fetch (40_execution_cycle.md R63). -/

/-- The four words from the pc on, the longest instruction. An address above `2^63 - 1` holds no word: what stands here for it is never used, because the resolver raises `AddressOverflow` for that slot first (40_execution_cycle.md R67; log entry 6). -/
def State.fetchWords (s : State) : List Word :=
  [s.mem.read s.pc, s.mem.read (s.pc + 1), s.mem.read (s.pc + 2), s.mem.read (s.pc + 3)]

/-- The fetch/decode unit at the pc (40_execution_cycle.md R63, R64). -/
def State.fetch (s : State) : Except DecodeError Instr :=
  match decode s.config s.fetchWords with
  | .ok (i, _) => .ok i
  | .error e => .error e

/-- What the step does where the words at the pc are no instruction: `UnknownOpcode(word = w)` (40_execution_cycle.md R64). A fetch of four words is never too short (log entry 6). -/
def State.fetchFailed (s : State) : DecodeError → State
  | .unknownOpcode w => s.raise ⟨.unknownOpcode, none, w.toInt⟩
  | .truncated => s.raise ⟨.unknownOpcode, none, (s.mem.read s.pc).toInt⟩

/-- The statuses in which a step executes (40_execution_cycle.md R62). -/
def Status.live : Status → Bool
  | .running => true
  | .waitingForInput => true
  | .halted => false
  | .faulted => false

/-- A memory with a list of words from an address on; a word past the end of Addr is left out. -/
def Memory.writeWords : Memory → Nat → List Word → Memory
  | m, _, [] => m
  | m, a, v :: vs => Memory.writeWords (if a ≤ addrMax then m.write a v else m) (a + 1) vs

/-- A state that can step again: a status that is not live becomes Running, without a fault record (log entry 15). -/
def State.revive (s : State) : State :=
  if s.status.live then s else { s with status := .running, fault := none }

end Sys2Proof.Machine
end

