-- ==== Sys2Proof/Machine/Flags.lean ====
section
/-! DEFINITION. The ALU (41_arithmetic.md R82) and the comparisons. CORE has no flags (10_state.md R24): a comparison answers the word 1 or 0, and a jump tests a value directly. -/

namespace Sys2Proof.Machine

/-- `alu(v)`: the exact result if it lies in I64, else `ArithmeticOverflow` or `wrap64(v)` by `OVERFLOW_POLICY` (41_arithmetic.md R82). -/
def alu (cfg : Config) (v : Int) : Except Raise Word :=
  if InI64 v then .ok (Word.ofInt v)
  else
    match cfg.overflow with
    | .fault => .error ⟨.arithmeticOverflow, none, v⟩
    | .wrap => .ok (Word.ofInt (wrap64 v))

/-- The word a comparison writes: 1 or 0 (44_compare.md R88, R89). -/
def truthWord (b : Bool) : Word := if b then 1#64 else 0#64

/-- Signed `a < b` (44_compare.md R88). -/
def signedLess (a b : Word) : Bool := decide (a.toInt < b.toInt)

/-- `a == b` (44_compare.md R89). -/
def sameValue (a b : Word) : Bool := decide (a.toInt = b.toInt)

/-- A value is not 0 (43_branch.md R85). -/
def isNonzero (a : Word) : Bool := decide (a.toInt ≠ 0)

/-- A value is 0 (43_branch.md R86). -/
def isZero (a : Word) : Bool := decide (a.toInt = 0)

end Sys2Proof.Machine
end

