-- ==== Sys2Proof/Machine/Operands.lean ====
section
/-! DEFINITION. The addressing resolver (40_execution_cycle.md R65 to R71) and the reading of source operands (R73). -/

namespace Sys2Proof.Machine

/-- The slot address `s_i = pc + i + 1` of parameter `i` (40_execution_cycle.md R67). -/
def State.slot (s : State) (i : ParamIndex) : Nat := s.pc + i.val + 1

/-- `addr_i` before its check, exact in ℤ: position `p_i` (R68), immediate the slot (R69), relative `p_i + rb` (R70). A digit that names no mode never comes this far (R65). -/
def State.effectiveAddress (s : State) (i : ParamIndex) (p : Param) : Int :=
  match p.mode with
  | .position => p.word.toInt
  | .immediate => (s.slot i : Int)
  | .relative => p.word.toInt + s.rb.toInt
  | .undefined _ => (s.slot i : Int)

/-- Resolve parameter `i`: the mode digit (R65), an immediate destination (R66), the slot (R67), then the address (R68 to R71). The first check that fails is the fault (R72). -/
def State.resolve (s : State) (i : ParamIndex) (role : Role) (p : Param) : Except Raise Nat :=
  if !s.config.modeEnabled p.mode then .error ⟨.invalidMode, some i, (p.mode.digit : Int)⟩
  else if s.config.immDestForbidden role p.mode then .error ⟨.invalidMode, some i, 1⟩
  else if addrMax < s.slot i then .error ⟨.addressOverflow, some i, (s.slot i : Int)⟩
  else checkAddress (some i) (s.effectiveAddress i p)

/-- `val_i` of a source parameter (R73). In immediate mode it is the parameter word, which is the word at the slot (R69; log entry 7). -/
def State.operand (s : State) (p : Param) (addr : Nat) : Word :=
  match p.mode with
  | .position => s.mem.read addr
  | .immediate => p.word
  | .relative => s.mem.read addr
  | .undefined _ => s.mem.read addr

end Sys2Proof.Machine
end

