-- ==== Sys2Proof/Machine/Arith.lean ====
section
/-! DEFINITION. Instructions of format F3 in common, and ADD and MUL (41_arithmetic.md R80, R81). -/

namespace Sys2Proof.Machine

/-- An instruction that computes one word from two sources and stores it: resolve the three parameters in index order, compute, check the fall-through, commit (40_execution_cycle.md R72 to R74). -/
def State.binaryStore (s : State) (f : Word → Word → Except Raise Word) (a b dst : Param) : Result :=
  s.conclude do
    let addrA ← s.resolve 0 .source a
    let addrB ← s.resolve 1 .source b
    let addrDst ← s.resolve 2 .destination dst
    let r ← f (s.operand a addrA) (s.operand b addrB)
    let next ← s.fallthrough 3
    pure ((s.store addrDst r).retire next)

/-- ADD: `dst = a + b` (R80). -/
def execAdd (a b dst : Param) (s : State) : Result :=
  s.binaryStore (fun x y => alu s.config (x.toInt + y.toInt)) a b dst

/-- MUL: `dst = a * b` (R81). -/
def execMul (a b dst : Param) (s : State) : Result :=
  s.binaryStore (fun x y => alu s.config (x.toInt * y.toInt)) a b dst

end Sys2Proof.Machine
end

