-- ==== Sys2Proof/Machine/BaseHalt.lean ====
section
/-! DEFINITION. ARB and HLT (45_base_halt.md R90, R91). -/

namespace Sys2Proof.Machine

/-- ARB: `rb = rb + a`; the operand is read with the old `rb` (R90). -/
def execArb (a : Param) (s : State) : Result :=
  s.conclude do
    let addr ← s.resolve 0 .source a
    let r ← alu s.config (s.rb.toInt + (s.operand a addr).toInt)
    let next ← s.fallthrough 1
    pure ((s.setRb r).retire next)

/-- HLT: the status becomes Halted and nothing else changes (R91). -/
def execHlt (s : State) : Result := .next s.halt

end Sys2Proof.Machine
end

