-- ==== Sys2Proof/Machine/Branch.lean ====
section
/-! DEFINITION. JNZ and JZ (43_branch.md R85 to R87). -/

namespace Sys2Proof.Machine

/-- The address a taken jump goes to: its target value, `NegativeAddress` on parameter 1 if that is below 0 (R87). -/
def jumpTarget (t : Word) : Except Raise Nat :=
  if t.toInt < 0 then .error ⟨.negativeAddress, some 1, t.toInt⟩ else .ok t.toInt.toNat

/-- Where a jump goes: its target if it is taken, else the fall-through (R85, R86). -/
def State.jumpNext (s : State) (taken : Bool) (t : Word) : Except Raise Nat :=
  if taken then jumpTarget t else s.fallthrough 2

/-- A jump on a condition: resolve both parameters whether or not it is taken (40_execution_cycle.md R71), then go to the target or fall through (R85, R86). -/
def State.jumpIf (s : State) (cond : Word → Bool) (a target : Param) : Result :=
  s.conclude do
    let addrA ← s.resolve 0 .source a
    let addrT ← s.resolve 1 .source target
    let next ← s.jumpNext (cond (s.operand a addrA)) (s.operand target addrT)
    pure (s.retire next)

/-- JNZ: if `a != 0` then `pc = target` (R85). -/
def execJnz (a target : Param) (s : State) : Result := s.jumpIf isNonzero a target

/-- JZ: if `a == 0` then `pc = target` (R86). -/
def execJz (a target : Param) (s : State) : Result := s.jumpIf isZero a target

end Sys2Proof.Machine
end

