-- ==== Sys2Proof/Machine/Compare.lean ====
section
/-! DEFINITION. LT and EQ (44_compare.md R88, R89). -/

namespace Sys2Proof.Machine

/-- LT: `dst` = 1 if `a < b`, signed, else 0 (R88). -/
def execLt (a b dst : Param) (s : State) : Result :=
  s.binaryStore (fun x y => .ok (truthWord (signedLess x y))) a b dst

/-- EQ: `dst` = 1 if `a == b`, else 0 (R89). -/
def execEq (a b dst : Param) (s : State) : Result :=
  s.binaryStore (fun x y => .ok (truthWord (sameValue x y))) a b dst

end Sys2Proof.Machine
end

