-- ==== Sys2Proof/Machine/InOut.lean ====
section
/-! DEFINITION. IN and OUT (42_io.md R83, R84). -/

namespace Sys2Proof.Machine

/-- The execution of IN once its destination is resolved: suspend on an empty queue, else consume the front and store it (R83). -/
def State.takeInput (s : State) (addr : Nat) : Except Raise State :=
  match s.iq with
  | [] => .ok s.suspend
  | v :: rest =>
    match s.fallthrough 1 with
    | .error e => .error e
    | .ok next => .ok (((s.store addr v).setInput rest).retire next)

/-- IN: `dst` = the next input, or suspend (R83). The destination is checked before the queue (60_exceptions.md R110). -/
def execIn (dst : Param) (s : State) : Result :=
  s.conclude do
    let addr ← s.resolve 0 .destination dst
    s.takeInput addr

/-- OUT: append `a` to the output sequence (R84). -/
def execOut (a : Param) (s : State) : Result :=
  s.conclude do
    let addr ← s.resolve 0 .source a
    let next ← s.fallthrough 1
    pure ((s.emit (s.operand a addr)).retire next)

end Sys2Proof.Machine
end

