-- ==== Sys2Proof/Machine/Step.lean ====
section
/-! DEFINITION. One step (40_execution_cycle.md R62 to R64, R72, R75, R76). -/

namespace Sys2Proof.Machine

/-- One step. Halted and Faulted are inert (R76). Otherwise fetch, decode and execute; a word that is no instruction raises `UnknownOpcode` (R64). A pc outside Addr, which no reachable state has, has no word to fetch (log entry 4). -/
def step (s : State) : Host.Outcome State Fault Refusal :=
  if s.status.live then
    if s.pc ≤ addrMax then
      match s.fetch with
      | .ok i => exec i s
      | .error e => .next (s.fetchFailed e)
    else .fault .fetchOutsideAddr
  else .next s

/-- A state whose next step fetches and runs the instruction whose bits are `w`: its words, up to the longest instruction, stand at the pc, and an engine that had stopped is Running (log entries 8, 15, 16). -/
def State.withFetchWord (s : State) (nbits w : Nat) : State :=
  let t := s.revive
  { t with mem := t.mem.writeWords t.pc (tableWords nbits w) }

end Sys2Proof.Machine
end

