-- ==== Sys2Proof/Machine/HostPort.lean ====
section
/-! DEFINITION. The host interface of one instance (46_host_interface.md R92 to R102) and RUN (40_execution_cycle.md R77, R78). A command is one transaction: it begins when the one before it has answered (R92). -/

namespace Sys2Proof.Machine

/-- A program image: at most `2^63` words, the number of addresses (46_host_interface.md R93). -/
abbrev Image := { words : List Word // words.length ≤ addrMax + 1 }

/-- Reset: the construction of an instance from a program image (70_reset_and_hazards.md R121, 10_state.md R26). -/
def State.construct (cfg : Config) (image : Image) : State :=
  { config := cfg
    mem := Memory.ofImage 0 image.val
    pc := 0
    rb := 0#64
    status := .running
    fault := none
    iq := []
    oq := [] }

/-- The host's commands (46_host_interface.md R92). -/
inductive Command where
  | construct (image : Image)
  | pushInput (v : Word)
  | pushInputs (vs : List Word)
  | run
  | resume (vs : List Word)
  | step
  | drainOutput
  | peekOutput
  | memRead (a : Word)
  | memWrite (a v : Word)
  | readStatus
  deriving DecidableEq, Repr

/-- What a command answers. -/
inductive Reply where
  /-- Nothing to tell: CONSTRUCT, PUSH_INPUT, PUSH_INPUTS, MEM_WRITE. -/
  | done
  /-- The status, with the fault record: RUN, RESUME, STEP, READ_STATUS (R95, R97, R102). -/
  | status (status : Status) (fault : Option FaultRecord)
  /-- Output words: DRAIN_OUTPUT, PEEK_OUTPUT (R98, R99). -/
  | output (vs : List Word)
  /-- A memory word: MEM_READ (R100). -/
  | word (v : Word)
  /-- The host port's own error; no engine fault (R100, R101). -/
  | negativeAddress (a : Word)
  deriving DecidableEq, Repr

/-- How far a command has come. -/
inductive Progress where
  /-- It answered and left this state. -/
  | completed (reply : Reply) (s : State)
  /-- It is still running: the steps allowed to it are used up. This is no halt and no answer (40_execution_cycle.md R78; log entry 10). -/
  | unfinished (s : State)
  /-- A step stopped without a next state. No reachable state does (log entry 4). -/
  | stuck (s : State)
  deriving DecidableEq, Repr

/-- The answer of RUN, RESUME, STEP and READ_STATUS. -/
def State.report (s : State) : Progress := .completed (.status s.status s.fault) s

/-- PUSH_INPUTS: append to the input channel and nothing else (46_host_interface.md R94). -/
def State.pushInputs (s : State) (vs : List Word) : State := { s with iq := s.iq ++ vs }

/-- DRAIN_OUTPUT's change: the output sequence is emptied (46_host_interface.md R98). -/
def State.drained (s : State) : State := { s with oq := [] }

/-- The loop of `Run(S)`, with a bound on the steps taken: step, and again while the status is Running (40_execution_cycle.md R77). -/
def runLoop : Nat → State → Progress
  | 0, s => .unfinished s
  | k + 1, s =>
    match step s with
    | .next t => if t.status = .running then runLoop k t else t.report
    | .fault _ => .stuck s
    | .refused _ => .stuck s

/-- `Run(S)` with a bound on the steps: inert on Halted and Faulted, else at least one step (40_execution_cycle.md R77). -/
def runFor (fuel : Nat) (s : State) : Progress :=
  if s.status.live then runLoop fuel s else s.report

/-- STEP (46_host_interface.md R97). -/
def stepCommand (s : State) : Progress :=
  match step s with
  | .next t => t.report
  | .fault _ => .stuck s
  | .refused _ => .stuck s

/-- MEM_READ (46_host_interface.md R100). -/
def memReadCommand (a : Word) (s : State) : Progress :=
  match memRead s.mem a.toInt with
  | .ok v => .completed (.word v) s
  | .error _ => .completed (.negativeAddress a) s

/-- MEM_WRITE (46_host_interface.md R101). -/
def memWriteCommand (a v : Word) (s : State) : Progress :=
  match memWrite s.mem a.toInt v with
  | .ok m => .completed .done { s with mem := m }
  | .error _ => .completed (.negativeAddress a) s

/-- One command to one instance, with a bound on the steps of RUN and RESUME. CONSTRUCT keeps the instance's parameters (log entry 13). -/
def command (fuel : Nat) (c : Command) (s : State) : Progress :=
  match c with
  | .construct image => .completed .done (State.construct s.config image)
  | .pushInput v => .completed .done (s.pushInputs [v])
  | .pushInputs vs => .completed .done (s.pushInputs vs)
  | .run => runFor fuel s
  | .resume vs => runFor fuel (s.pushInputs vs)
  | .step => stepCommand s
  | .drainOutput => .completed (.output s.oq) s.drained
  | .peekOutput => .completed (.output s.oq) s
  | .memRead a => memReadCommand a s
  | .memWrite a v => memWriteCommand a v s
  | .readStatus => s.report

/-! Several instances (10_state.md R27, 46_host_interface.md R105). -/

/-- The engine instances a host has constructed, in order; a place is empty once its instance is discarded. An instance's handle is its place, which no other instance ever takes (60_exceptions.md R118; log entry 14). -/
abbrev Engines := List (Option State)

/-- The instance with handle `k`: none if it was never constructed or is discarded. -/
def Engines.engine (es : Engines) (k : Nat) : Option State := es[k]?.join

/-- The host constructs one more instance; its handle is `es.length`. -/
def Engines.construct (es : Engines) (cfg : Config) (image : Image) : Engines :=
  es ++ [some (State.construct cfg image)]

/-- The host discards the instance with handle `k`, at any status: its memory and its engine are gone together (46_host_interface.md R105, 70_reset_and_hazards.md R121). -/
def Engines.discard (es : Engines) (k : Nat) : Engines := es.set k none

/-- A command to the instance with handle `k`, once it has answered: the answer, and the engines after it. None where there is no such instance, or where the command does not answer within the given steps; until it answers no other command to that instance is accepted (46_host_interface.md R92). -/
def Engines.issue (es : Engines) (fuel : Nat) (k : Nat) (c : Command) : Option (Reply × Engines) :=
  match es.engine k with
  | none => none
  | some s =>
    match command fuel c s with
    | .completed reply t => some (reply, es.set k (some t))
    | .unfinished _ => none
    | .stuck _ => none

end Sys2Proof.Machine
end

