-- ==== Sys2Proof/Safety.lean ====
section
/-! DEFINITION. The terms statements are written in: the invariant of reachable states, when a parameter resolves and when it fails, and the four ends of a run. -/

namespace Sys2Proof.Machine

/-- What the fault record and the status say of each other (10_state.md R20): a record exactly when Faulted, and its `fpc` the pc, which nothing moves any more (60_exceptions.md R108). -/
abbrev FaultAgrees (s : State) : Prop :=
  (s.status = .faulted ↔ s.fault ≠ none) ∧ s.fault.all (fun r => r.fpc == s.pc) = true

/-- The invariant of every reachable state: the memory is canonical with every address in Addr (10_state.md R23), the pc is in Addr (R17), and the fault record agrees with the status (R20). -/
abbrev EngineInvariant (s : State) : Prop :=
  s.mem.wf ∧ s.pc ≤ addrMax ∧ FaultAgrees s

/-- Parameter `i` passes every check of the resolver and its address is `a` (40_execution_cycle.md R65 to R71): its mode is legal, its slot is in Addr, and its exact address is `a`, in Addr. -/
abbrev ResolvesTo (s : State) (i : ParamIndex) (role : Role) (p : Param) (a : Nat) : Prop :=
  s.config.modeLegal role p.mode = true ∧ s.slot i ≤ addrMax ∧
    s.effectiveAddress i p = (a : Int) ∧ a ≤ addrMax

/-- Parameter `i` fails a check, and `e` is the fault of the first it fails (40_execution_cycle.md R65 to R71, in the order of R72). -/
abbrev FailsWith (s : State) (i : ParamIndex) (role : Role) (p : Param) (e : Raise) : Prop :=
  (s.config.modeEnabled p.mode = false ∧ e = ⟨.invalidMode, some i, (p.mode.digit : Int)⟩) ∨
  (s.config.modeEnabled p.mode = true ∧ role = .destination ∧ p.mode = .immediate ∧
    s.config.immDest = .fault ∧ e = ⟨.invalidMode, some i, 1⟩) ∨
  (s.config.modeLegal role p.mode = true ∧ addrMax < s.slot i ∧
    e = ⟨.addressOverflow, some i, (s.slot i : Int)⟩) ∨
  (s.config.modeLegal role p.mode = true ∧ s.slot i ≤ addrMax ∧ s.effectiveAddress i p < 0 ∧
    e = ⟨.negativeAddress, some i, s.effectiveAddress i p⟩) ∨
  (s.config.modeLegal role p.mode = true ∧ s.slot i ≤ addrMax ∧
    (addrMax : Int) < s.effectiveAddress i p ∧
    e = ⟨.addressOverflow, some i, s.effectiveAddress i p⟩)

/-- Some parameter of the list fails, all before it resolve, and `e` is its fault: parameters are checked in index order (40_execution_cycle.md R72, 60_exceptions.md R110). -/
def FirstFailure (s : State) : List (ParamIndex × Role × Param) → Raise → Prop
  | [], _ => False
  | (i, role, p) :: rest, e =>
    FailsWith s i role p e ∨ ((∃ a, ResolvesTo s i role p a) ∧ FirstFailure s rest e)

/-- The value the ALU leaves of an exact result, if it does not raise (41_arithmetic.md R82): the result in I64, or `wrap64` of it under `Wrap`. -/
abbrev AluGives (cfg : Config) (v : Int) (r : Word) : Prop :=
  (InI64 v ∧ r.toInt = v) ∨ (¬ InI64 v ∧ cfg.overflow = .wrap ∧ r.toInt = wrap64 v)

/-- Parameter `k` of the instruction at the pc, as its words encode it: the mode digit `(w div 10^(k+2)) mod 10` of the instruction word (30_encoding.md R47) and the word in the slot `pc + k + 1` (R46). -/
def State.paramAt (s : State) (k : Nat) : Param :=
  ⟨Mode.ofDigit ((s.mem.read s.pc).toNat / 10 ^ (k + 2) % 10), s.mem.read (s.pc + k + 1)⟩

/-- Every word at the pc that is not negative and whose low two digits are `num` is fetched as this instruction, if its opcode is enabled, whatever its ignored digits are (30_encoding.md R47, R49, R51, R55). -/
def FetchedBy (num : Nat) (enabled : OpcodeSet → Bool) (mk : State → Instr) : Prop :=
  ∀ s : State, 0 ≤ (s.mem.read s.pc).toInt → (s.mem.read s.pc).toNat % 100 = num →
    enabled s.config.opcodes = true → s.fetch = .ok (mk s)

/-- The opcode map: `n` is the number of an enabled opcode (30_encoding.md R55). -/
abbrev SelectsOpcode (en : OpcodeSet) (n : Nat) : Prop :=
  (n = 1 ∧ en.add = true) ∨ (n = 2 ∧ en.mul = true) ∨ (n = 3 ∧ en.inp = true) ∨
  (n = 4 ∧ en.out = true) ∨ (n = 5 ∧ en.jnz = true) ∨ (n = 6 ∧ en.jz = true) ∨
  (n = 7 ∧ en.lt = true) ∨ (n = 8 ∧ en.eq = true) ∨ (n = 9 ∧ en.arb = true) ∨
  (n = 99 ∧ en.hlt = true)

/-- A RUN from `s` ends, and `t` is the state it leaves (40_execution_cycle.md R77). -/
def RunEnds (s t : State) : Prop := ∃ fuel, runFor fuel s = t.report

/-- A RUN from `s` never ends: however many steps it is allowed, it is still running (40_execution_cycle.md R78). -/
def RunNeverEnds (s : State) : Prop := ∀ fuel, ∃ t, runFor fuel s = .unfinished t

end Sys2Proof.Machine
end

