-- ==== Sys2Proof/Certificates/Slice0/Obligations.lean ====
section
/-! DEFINITION. The statements about CORE, each from numbered rules of the spec. -/

open Sys2Proof Sys2Proof.Machine

/-! ## Encoding -/

/-- Decoding the words of an instruction gives it back, with the words after it: every constructor, every mode digit 0 to 9, every parameter word, under every parameter choice that enables its opcode (30_encoding.md R47, R58, R61). Rests on R58's and R61's derived sentences. -/
def Obligations.DecodeEncodeRoundTrip : Prop :=
  ∀ (cfg : Config) (i : Instr) (rest : List Word), cfg.opcodeEnabled i.opcode = true →
    decode cfg (encode i ++ rest) = .ok (i, rest)

/-- Words of the spec's decode table (95_test_vectors.md L2.1) and of its instruction examples. Rests on the vectors, which 95_test_vectors.md derives from the rules. -/
def Obligations.SpecWordsDecode : Prop :=
  decode Config.default [1#64, 9#64, 10#64, 3#64] =
      .ok (.add ⟨.position, 9#64⟩ ⟨.position, 10#64⟩ ⟨.position, 3#64⟩, []) ∧
  decode Config.default [1002#64, 4#64, 3#64, 4#64] =
      .ok (.mul ⟨.position, 4#64⟩ ⟨.immediate, 3#64⟩ ⟨.position, 4#64⟩, []) ∧
  decode Config.default [3#64, 5#64] = .ok (.inp ⟨.position, 5#64⟩, []) ∧
  decode Config.default [204#64, -1#64] = .ok (.out ⟨.relative, -1#64⟩, []) ∧
  decode Config.default [2105#64, 1#64, 3#64] =
      .ok (.jnz ⟨.immediate, 1#64⟩ ⟨.relative, 3#64⟩, []) ∧
  decode Config.default [1006#64, 101#64, 0#64] =
      .ok (.jz ⟨.position, 101#64⟩ ⟨.immediate, 0#64⟩, []) ∧
  decode Config.default [21107#64, 1#64, 2#64, 3#64] =
      .ok (.lt ⟨.immediate, 1#64⟩ ⟨.immediate, 2#64⟩ ⟨.relative, 3#64⟩, []) ∧
  decode Config.default [1008#64, 100#64, 16#64, 101#64] =
      .ok (.eq ⟨.position, 100#64⟩ ⟨.immediate, 16#64⟩ ⟨.position, 101#64⟩, []) ∧
  decode Config.default [109#64, 1#64] = .ok (.arb ⟨.immediate, 1#64⟩, []) ∧
  decode Config.default [100099#64] = .ok (.hlt, [])

/-- R48: a negative word decodes as no instruction, and a step that fetches one raises `UnknownOpcode`. Rests on the spec's decision D5. -/
def Obligations.NegativeWordIsUnknownOpcode : Prop :=
  (∀ (cfg : Config) (w : Word) (ws : List Word), w.toInt < 0 →
    decode cfg (w :: ws) = .error (.unknownOpcode w)) ∧
  ∀ s : State, s.status.live = true → s.pc ≤ addrMax → (s.mem.read s.pc).toInt < 0 →
    step s = .next (s.raise ⟨.unknownOpcode, none, (s.mem.read s.pc).toInt⟩)

/-- R55: for a word that is not negative, the low two digits select an instruction if and only if they are an enabled opcode; every other value raises `UnknownOpcode`. -/
def Obligations.OpcodeMapSelectsInstruction : Prop :=
  ∀ s : State, s.status.live = true → s.pc ≤ addrMax → 0 ≤ (s.mem.read s.pc).toInt →
    ((∃ i, s.fetch = .ok i) ↔
      SelectsOpcode s.config.opcodes ((s.mem.read s.pc).toNat % 100)) ∧
    (¬ SelectsOpcode s.config.opcodes ((s.mem.read s.pc).toNat % 100) →
      step s = .next (s.raise ⟨.unknownOpcode, none, (s.mem.read s.pc).toInt⟩))

/-- R49: two words that agree in the digits below weight `10^(n+2)` decode alike, whatever their higher digits are. -/
def Obligations.UnusedDigitsAreIgnored : Prop :=
  ∀ (cfg : Config) (op : Opcode) (w w' : Word) (ws : List Word),
    0 ≤ w.toInt → 0 ≤ w'.toInt → w.toNat % 100 = op.number →
    w.toNat % 10 ^ (op.nparams + 2) = w'.toNat % 10 ^ (op.nparams + 2) →
    cfg.opcodeEnabled op = true → decode cfg (w :: ws) = decode cfg (w' :: ws)

/-- R47: in a decoded instruction the opcode is the low two digits, and the mode of parameter `k` is the digit of weight `10^(k+2)`. -/
def Obligations.DecodedFieldsAreDigits : Prop :=
  ∀ (cfg : Config) (w : Word) (ws rest : List Word) (i : Instr),
    decode cfg (w :: ws) = .ok (i, rest) →
    i.opcode.number = w.toNat % 100 ∧
    ∀ k role p, (k, role, p) ∈ i.params → p.mode.digit = w.toNat / 10 ^ (k.val + 2) % 10

/-- A fetched instruction is `1 + n` words: the word at the pc, and parameter `k` from the slot `pc + k + 1` (30_encoding.md R46, R57). Decoding takes exactly those words. -/
def Obligations.InstructionIsItsWords : Prop :=
  (∀ (cfg : Config) (w : Word) (ws rest : List Word) (i : Instr),
    decode cfg (w :: ws) = .ok (i, rest) →
    ws = i.params.map (fun q => q.2.2.word) ++ rest ∧ i.params.length = i.opcode.nparams) ∧
  ∀ (s : State) (i : Instr), s.fetch = .ok i →
    ∀ k role p, (k, role, p) ∈ i.params → p.word = s.mem.read (s.pc + k.val + 1)

/-- R56, R58: a word is a legal instruction, `UnknownOpcode`, or `InvalidMode` for a stated parameter. A legal one never raises the other two; an unknown one raises `UnknownOpcode`; one with an invalid mode never completes: it raises `InvalidMode` for that parameter, unless an earlier parameter's address or slot is out of range. Rests on R58's derived sentence and the spec's decisions D5, D6 and D8. -/
def Obligations.WordClassDecidesTheFault : Prop :=
  ∀ s : State, s.status.live = true → s.pc ≤ addrMax →
    match classifyWord s.config (s.mem.read s.pc) with
    | .legal op =>
      (∃ i, s.fetch = .ok i ∧ i.opcode = op) ∧
      ∀ t r, step s = .next t → t.status = .faulted → t.fault = some r →
        r.code ≠ .unknownOpcode ∧ r.code ≠ .invalidMode
    | .unknownOpcode =>
      step s = .next (s.raise ⟨.unknownOpcode, none, (s.mem.read s.pc).toInt⟩)
    | .invalidMode k d =>
      step s = .next (s.raise ⟨.invalidMode, some k, (d : Int)⟩) ∨
      ∃ e j, step s = .next (s.raise e) ∧ e.param = some j ∧ j < k ∧
        (e.code = .negativeAddress ∨ e.code = .addressOverflow)

/-! ## Memory -/

/-- R31: a write in Addr succeeds, is read back, and changes that address only; below 0 it raises `NegativeAddress`, above `2^63 - 1` `AddressOverflow`. Rests on the spec's decision D3 for the upper bound. -/
def Obligations.WriteChangesOneWord : Prop :=
  ∀ (m : Memory) (a : Int) (v : Word),
    (0 ≤ a → a ≤ addrMax → ∃ m', memWrite m a v = .ok m' ∧ memRead m' a = .ok v ∧
      ∀ b, b ≠ a → memRead m' b = memRead m b) ∧
    (a < 0 → memWrite m a v = .error ⟨.negativeAddress, none, a⟩) ∧
    ((addrMax : Int) < a → memWrite m a v = .error ⟨.addressOverflow, none, a⟩)

/-- Two canonical memories that read alike at every address are equal (the model's memory form: log entry 3). Rests on the model's choice of log entry 3. -/
def Obligations.CanonicalMemoryIsUnique : Prop :=
  ∀ m m' : Memory, m.wf → m'.wf → (∀ a, m.read a = m'.read a) → m = m'

/-! ## Addressing resolver -/

/-- The resolver answers an address exactly where every check of R65 to R71 passes, and a fault exactly where one fails, the first in the order of R72. Rests on the spec's decisions D3, D4, D6 and D8. -/
def Obligations.ResolverChecksInOrder : Prop :=
  ∀ (s : State) (i : ParamIndex) (role : Role) (p : Param),
    (∀ a, s.resolve i role p = .ok a ↔ ResolvesTo s i role p a) ∧
    ∀ e, s.resolve i role p = .error e ↔ FailsWith s i role p e

/-- R68, R70 (and R69's address): what address each mode gives; the relative sum is exact in ℤ. Rests on the spec's decision D4 for the exact relative sum. -/
def Obligations.ResolvedAddressByMode : Prop :=
  ∀ (s : State) (i : ParamIndex) (role : Role) (p : Param) (a : Nat),
    s.resolve i role p = .ok a →
    (p.mode = .position → (a : Int) = p.word.toInt) ∧
    (p.mode = .immediate → a = s.pc + i.val + 1) ∧
    (p.mode = .relative → (a : Int) = p.word.toInt + s.rb.toInt)

/-- R65: a mode digit outside `{0, 1, 2} ∩ ENABLED_MODES` raises `InvalidMode` with the parameter and the digit. -/
def Obligations.DisallowedModeDigitRaises : Prop :=
  ∀ (s : State) (i : ParamIndex) (role : Role) (p : Param),
    ¬ ((p.mode.digit = 0 ∧ s.config.modes.position = true) ∨
       (p.mode.digit = 1 ∧ s.config.modes.immediate = true) ∨
       (p.mode.digit = 2 ∧ s.config.modes.relative = true)) →
    s.resolve i role p = .error ⟨.invalidMode, some i, (p.mode.digit : Int)⟩

/-- R66: a destination in immediate mode raises `InvalidMode` with value 1 under `Fault`; under `WriteSlot` its address is its own slot. Rests on the spec's decisions D6 and D3. -/
def Obligations.ImmediateDestinationPolicy : Prop :=
  ∀ (s : State) (i : ParamIndex) (p : Param),
    p.mode = .immediate → s.config.modes.immediate = true →
    (s.config.immDest = .fault →
      s.resolve i .destination p = .error ⟨.invalidMode, some i, 1⟩) ∧
    (s.config.immDest = .writeSlot → s.pc + i.val + 1 ≤ addrMax →
      s.resolve i .destination p = .ok (s.pc + i.val + 1)) ∧
    (s.config.immDest = .writeSlot → addrMax < s.pc + i.val + 1 →
      s.resolve i .destination p =
        .error ⟨.addressOverflow, some i, ((s.pc + i.val + 1 : Nat) : Int)⟩)

/-- In a fetched instruction the value of a source parameter is the word at its resolved address, in every mode (40_execution_cycle.md R69, R73). Rests on R73, which the spec derives from R72, and log entry 7. -/
def Obligations.OperandIsWordAtItsAddress : Prop :=
  ∀ (s : State) (i : Instr) (k : ParamIndex) (role : Role) (p : Param) (a : Nat),
    s.fetch = .ok i → (k, role, p) ∈ i.params → s.resolve k role p = .ok a →
    s.operand p a = s.mem.read a

/-- The parameters are checked in index order before anything else of the instruction, an empty input queue among it: the first that fails is the step's fault (40_execution_cycle.md R72, 60_exceptions.md R110). Rests on the spec's decision D8. -/
def Obligations.FirstFailingParameterIsReported : Prop :=
  ∀ (i : Instr) (s : State) (e : Raise), FirstFailure s i.params e →
    exec i s = .next (s.raise e)

/-! ## Instructions -/

/-- R82: the ALU's result is the exact value in I64; outside it `ArithmeticOverflow` under `Fault`, and `((v + 2^63) mod 2^64) - 2^63` under `Wrap`. Rests on the spec's decision D4. -/
def Obligations.AluIsExactThenPolicy : Prop :=
  ∀ (cfg : Config) (v : Int),
    (InI64 v → ∃ r : Word, alu cfg v = .ok r ∧ r.toInt = v) ∧
    (¬ InI64 v → cfg.overflow = .fault → alu cfg v = .error ⟨.arithmeticOverflow, none, v⟩) ∧
    (¬ InI64 v → cfg.overflow = .wrap →
      ∃ r : Word, alu cfg v = .ok r ∧ r.toInt = (v + 2 ^ 63) % 2 ^ 64 - 2 ^ 63)

/-- R80: ADD. -/
def Obligations.AddStoresTheSum : Prop :=
  FetchedBy 1 (fun en => en.add)
    (fun s => .add (s.paramAt 0) (s.paramAt 1) (s.paramAt 2)) ∧
  ∀ (a b dst : Param) (s : State),
    (∀ e, FirstFailure s (Instr.add a b dst).params e →
      exec (.add a b dst) s = .next (s.raise e)) ∧
    ∀ x y d, ResolvesTo s 0 .source a x → ResolvesTo s 1 .source b y →
      ResolvesTo s 2 .destination dst d →
      (¬ InI64 ((s.operand a x).toInt + (s.operand b y).toInt) → s.config.overflow = .fault →
        exec (.add a b dst) s = .next (s.raise
          ⟨.arithmeticOverflow, none, (s.operand a x).toInt + (s.operand b y).toInt⟩)) ∧
      ∀ r, AluGives s.config ((s.operand a x).toInt + (s.operand b y).toInt) r →
        (s.pc + 4 ≤ addrMax → exec (.add a b dst) s =
          .next { s with mem := s.mem.write d r, pc := s.pc + 4, status := .running }) ∧
        (addrMax < s.pc + 4 → exec (.add a b dst) s =
          .next (s.raise ⟨.addressOverflow, none, ((s.pc + 4 : Nat) : Int)⟩))

/-- R81: MUL. -/
def Obligations.MulStoresTheProduct : Prop :=
  FetchedBy 2 (fun en => en.mul)
    (fun s => .mul (s.paramAt 0) (s.paramAt 1) (s.paramAt 2)) ∧
  ∀ (a b dst : Param) (s : State),
    (∀ e, FirstFailure s (Instr.mul a b dst).params e →
      exec (.mul a b dst) s = .next (s.raise e)) ∧
    ∀ x y d, ResolvesTo s 0 .source a x → ResolvesTo s 1 .source b y →
      ResolvesTo s 2 .destination dst d →
      (¬ InI64 ((s.operand a x).toInt * (s.operand b y).toInt) → s.config.overflow = .fault →
        exec (.mul a b dst) s = .next (s.raise
          ⟨.arithmeticOverflow, none, (s.operand a x).toInt * (s.operand b y).toInt⟩)) ∧
      ∀ r, AluGives s.config ((s.operand a x).toInt * (s.operand b y).toInt) r →
        (s.pc + 4 ≤ addrMax → exec (.mul a b dst) s =
          .next { s with mem := s.mem.write d r, pc := s.pc + 4, status := .running }) ∧
        (addrMax < s.pc + 4 → exec (.mul a b dst) s =
          .next (s.raise ⟨.addressOverflow, none, ((s.pc + 4 : Nat) : Int)⟩))

/-- R83: IN. Rests on the spec's decisions D8 (a fault beats the suspension) and D9. -/
def Obligations.InConsumesOrSuspends : Prop :=
  FetchedBy 3 (fun en => en.inp) (fun s => .inp (s.paramAt 0)) ∧
  ∀ (dst : Param) (s : State),
    (∀ e, FirstFailure s (Instr.inp dst).params e → exec (.inp dst) s = .next (s.raise e)) ∧
    ∀ d, ResolvesTo s 0 .destination dst d →
      (s.iq = [] → exec (.inp dst) s = .next { s with status := .waitingForInput }) ∧
      ∀ v rest, s.iq = v :: rest →
        (s.pc + 2 ≤ addrMax → exec (.inp dst) s =
          .next { s with mem := s.mem.write d v, iq := rest, pc := s.pc + 2, status := .running }) ∧
        (addrMax < s.pc + 2 → exec (.inp dst) s =
          .next (s.raise ⟨.addressOverflow, none, ((s.pc + 2 : Nat) : Int)⟩))

/-- R84: OUT. Rests on the spec's decisions D14 (OUT never waits) and D9. -/
def Obligations.OutAppendsItsOperand : Prop :=
  FetchedBy 4 (fun en => en.out) (fun s => .out (s.paramAt 0)) ∧
  ∀ (a : Param) (s : State),
    (∀ e, FirstFailure s (Instr.out a).params e → exec (.out a) s = .next (s.raise e)) ∧
    ∀ x, ResolvesTo s 0 .source a x →
      (s.pc + 2 ≤ addrMax → exec (.out a) s =
        .next { s with oq := s.oq ++ [s.operand a x], pc := s.pc + 2, status := .running }) ∧
      (addrMax < s.pc + 2 → exec (.out a) s =
        .next (s.raise ⟨.addressOverflow, none, ((s.pc + 2 : Nat) : Int)⟩))

/-- R85: JNZ. -/
def Obligations.JnzJumpsOnNonzero : Prop :=
  FetchedBy 5 (fun en => en.jnz) (fun s => .jnz (s.paramAt 0) (s.paramAt 1)) ∧
  ∀ (a target : Param) (s : State),
    (∀ e, FirstFailure s (Instr.jnz a target).params e →
      exec (.jnz a target) s = .next (s.raise e)) ∧
    ∀ x y, ResolvesTo s 0 .source a x → ResolvesTo s 1 .source target y →
      ((s.operand a x).toInt ≠ 0 → 0 ≤ (s.operand target y).toInt →
        exec (.jnz a target) s =
          .next { s with pc := (s.operand target y).toInt.toNat, status := .running }) ∧
      ((s.operand a x).toInt ≠ 0 → (s.operand target y).toInt < 0 →
        exec (.jnz a target) s =
          .next (s.raise ⟨.negativeAddress, some 1, (s.operand target y).toInt⟩)) ∧
      ((s.operand a x).toInt = 0 → s.pc + 3 ≤ addrMax → exec (.jnz a target) s =
        .next { s with pc := s.pc + 3, status := .running }) ∧
      ((s.operand a x).toInt = 0 → addrMax < s.pc + 3 → exec (.jnz a target) s =
        .next (s.raise ⟨.addressOverflow, none, ((s.pc + 3 : Nat) : Int)⟩))

/-- R86: JZ. -/
def Obligations.JzJumpsOnZero : Prop :=
  FetchedBy 6 (fun en => en.jz) (fun s => .jz (s.paramAt 0) (s.paramAt 1)) ∧
  ∀ (a target : Param) (s : State),
    (∀ e, FirstFailure s (Instr.jz a target).params e →
      exec (.jz a target) s = .next (s.raise e)) ∧
    ∀ x y, ResolvesTo s 0 .source a x → ResolvesTo s 1 .source target y →
      ((s.operand a x).toInt = 0 → 0 ≤ (s.operand target y).toInt →
        exec (.jz a target) s =
          .next { s with pc := (s.operand target y).toInt.toNat, status := .running }) ∧
      ((s.operand a x).toInt = 0 → (s.operand target y).toInt < 0 →
        exec (.jz a target) s =
          .next (s.raise ⟨.negativeAddress, some 1, (s.operand target y).toInt⟩)) ∧
      ((s.operand a x).toInt ≠ 0 → s.pc + 3 ≤ addrMax → exec (.jz a target) s =
        .next { s with pc := s.pc + 3, status := .running }) ∧
      ((s.operand a x).toInt ≠ 0 → addrMax < s.pc + 3 → exec (.jz a target) s =
        .next (s.raise ⟨.addressOverflow, none, ((s.pc + 3 : Nat) : Int)⟩))

/-- R88: LT. -/
def Obligations.LtStoresSignedComparison : Prop :=
  FetchedBy 7 (fun en => en.lt) (fun s => .lt (s.paramAt 0) (s.paramAt 1) (s.paramAt 2)) ∧
  ∀ (a b dst : Param) (s : State),
    (∀ e, FirstFailure s (Instr.lt a b dst).params e →
      exec (.lt a b dst) s = .next (s.raise e)) ∧
    ∀ x y d, ResolvesTo s 0 .source a x → ResolvesTo s 1 .source b y →
      ResolvesTo s 2 .destination dst d →
      (s.pc + 4 ≤ addrMax → exec (.lt a b dst) s =
        .next { s with
          mem := s.mem.write d (if (s.operand a x).toInt < (s.operand b y).toInt then 1#64 else 0#64)
          pc := s.pc + 4, status := .running }) ∧
      (addrMax < s.pc + 4 → exec (.lt a b dst) s =
        .next (s.raise ⟨.addressOverflow, none, ((s.pc + 4 : Nat) : Int)⟩))

/-- R89: EQ. -/
def Obligations.EqStoresEquality : Prop :=
  FetchedBy 8 (fun en => en.eq) (fun s => .eq (s.paramAt 0) (s.paramAt 1) (s.paramAt 2)) ∧
  ∀ (a b dst : Param) (s : State),
    (∀ e, FirstFailure s (Instr.eq a b dst).params e →
      exec (.eq a b dst) s = .next (s.raise e)) ∧
    ∀ x y d, ResolvesTo s 0 .source a x → ResolvesTo s 1 .source b y →
      ResolvesTo s 2 .destination dst d →
      (s.pc + 4 ≤ addrMax → exec (.eq a b dst) s =
        .next { s with
          mem := s.mem.write d (if s.operand a x = s.operand b y then 1#64 else 0#64)
          pc := s.pc + 4, status := .running }) ∧
      (addrMax < s.pc + 4 → exec (.eq a b dst) s =
        .next (s.raise ⟨.addressOverflow, none, ((s.pc + 4 : Nat) : Int)⟩))

/-- R90: ARB. -/
def Obligations.ArbAdjustsTheBase : Prop :=
  FetchedBy 9 (fun en => en.arb) (fun s => .arb (s.paramAt 0)) ∧
  ∀ (a : Param) (s : State),
    (∀ e, FirstFailure s (Instr.arb a).params e → exec (.arb a) s = .next (s.raise e)) ∧
    ∀ x, ResolvesTo s 0 .source a x →
      (¬ InI64 (s.rb.toInt + (s.operand a x).toInt) → s.config.overflow = .fault →
        exec (.arb a) s = .next (s.raise
          ⟨.arithmeticOverflow, none, s.rb.toInt + (s.operand a x).toInt⟩)) ∧
      ∀ r, AluGives s.config (s.rb.toInt + (s.operand a x).toInt) r →
        (s.pc + 2 ≤ addrMax → exec (.arb a) s =
          .next { s with rb := r, pc := s.pc + 2, status := .running }) ∧
        (addrMax < s.pc + 2 → exec (.arb a) s =
          .next (s.raise ⟨.addressOverflow, none, ((s.pc + 2 : Nat) : Int)⟩))

/-- R91: HLT, in every state and with no fault; every later step is inert. Rests on the spec's decision D10. -/
def Obligations.HltHalts : Prop :=
  FetchedBy 99 (fun en => en.hlt) (fun _ => .hlt) ∧
  ∀ s : State, exec .hlt s = .next { s with status := .halted } ∧
    step { s with status := .halted } = .next { s with status := .halted }

/-! ## Frames -/

/-- ADD, MUL, LT and EQ change the destination word, the pc and the status, and on a fault the status and the record; nothing else. Where the destination resolves to `d`, every other word is as before; where it does not resolve, every word is. Rests on the spec's decision D8 (commit at the end). -/
def Obligations.StoringInstructionsFrame : Prop :=
  ∀ (a b dst : Param) (i : Instr) (s t : State),
    (i = .add a b dst ∨ i = .mul a b dst ∨ i = .lt a b dst ∨ i = .eq a b dst) →
    exec i s = .next t →
    t.config = s.config ∧ t.rb = s.rb ∧ t.iq = s.iq ∧ t.oq = s.oq ∧
    (t.status ≠ .faulted → t.fault = s.fault) ∧
    (∀ d, s.resolve 2 .destination dst = .ok d → ∀ n, n ≠ d → t.mem.read n = s.mem.read n) ∧
    (∀ e, s.resolve 2 .destination dst = .error e → ∀ n, t.mem.read n = s.mem.read n)

/-- IN changes the destination word, the pc, the status and the input channel, and on a fault the status and the record; nothing else. A suspension or a fault stores nothing. Rests on the spec's decision D8. -/
def Obligations.InFrame : Prop :=
  ∀ (dst : Param) (s t : State), exec (.inp dst) s = .next t →
    t.config = s.config ∧ t.rb = s.rb ∧ t.oq = s.oq ∧
    (t.status ≠ .faulted → t.fault = s.fault) ∧
    (t.status ≠ .running → t.iq = s.iq ∧ t.pc = s.pc ∧ ∀ n, t.mem.read n = s.mem.read n) ∧
    (∀ d, s.resolve 0 .destination dst = .ok d → ∀ n, n ≠ d → t.mem.read n = s.mem.read n)

/-- OUT, JNZ, JZ, ARB and HLT change no word of memory and no input; only ARB changes the relative base and only OUT the output sequence. Rests on the spec's decision D8. -/
def Obligations.NonStoringInstructionsFrame : Prop :=
  ∀ (a b : Param) (i : Instr) (s t : State),
    (i = .out a ∨ i = .jnz a b ∨ i = .jz a b ∨ i = .arb a ∨ i = .hlt) →
    exec i s = .next t →
    t.config = s.config ∧ t.iq = s.iq ∧ (∀ n, t.mem.read n = s.mem.read n) ∧
    (t.status ≠ .faulted → t.fault = s.fault) ∧
    (i.opcode ≠ .arb → t.rb = s.rb) ∧ (i.opcode ≠ .out → t.oq = s.oq)

/-! ## Steps, statuses and faults -/

/-- A step of a live engine is `exec` of the instruction its words decode to (40_execution_cycle.md R72); nothing stands around it. -/
def Obligations.StepRunsTheDecodedInstruction : Prop :=
  ∀ (s : State) (i : Instr) (rest : List Word), s.status.live = true → s.pc ≤ addrMax →
    decode s.config [s.mem.read s.pc, s.mem.read (s.pc + 1), s.mem.read (s.pc + 2),
      s.mem.read (s.pc + 3)] = .ok (i, rest) →
    step s = exec i s

/-- R76: a step in Halted or Faulted changes no state and answers the same status; no command but a new construction leaves that status or touches the record (60_exceptions.md R111). Rests on the spec's decisions D10 and D18. -/
def Obligations.StoppedEngineIsInert : Prop :=
  ∀ s : State, s.status = .halted ∨ s.status = .faulted →
    step s = .next s ∧
    (∀ fuel, command fuel .step s = .completed (.status s.status s.fault) s) ∧
    ∀ (fuel : Nat) (c : Command) (t : State) (reply : Reply),
      command fuel c s = .completed reply t → (∀ image, c ≠ .construct image) →
      t.status = s.status ∧ t.fault = s.fault ∧ t.pc = s.pc ∧ t.rb = s.rb

/-- A step from WaitingForInput is the same step as from Running (40_execution_cycle.md R75). Rests on R75, which the spec derives from R72. -/
def Obligations.WaitingStepIsTheRunningStep : Prop :=
  ∀ s : State, step { s with status := .waitingForInput } = step { s with status := .running }

/-- Only an IN that finds the input channel empty suspends, and then nothing but the status changes (10_state.md R19, 60_exceptions.md R109). Rests on the spec's decision D8. -/
def Obligations.OnlyEmptyInputSuspends : Prop :=
  ∀ s t : State, s.status.live = true → step s = .next t → t.status = .waitingForInput →
    s.iq = [] ∧ t = { s with status := .waitingForInput } ∧ ∃ dst, s.fetch = .ok (.inp dst)

/-- Only HLT halts, and then nothing but the status changes (10_state.md R19, 45_base_halt.md R91). Rests on the spec's decision D10. -/
def Obligations.OnlyHltHalts : Prop :=
  ∀ s t : State, s.status.live = true → step s = .next t → t.status = .halted →
    s.fetch = .ok .hlt ∧ t = { s with status := .halted }

/-- R108: a step that faults leaves the memory, pc, relative base and queues as they were; the record names the pc and the word there. Rests on R108, which the spec derives from R72, and its decisions D7 and D20. -/
def Obligations.FaultsArePrecise : Prop :=
  ∀ s t : State, s.status.live = true → step s = .next t → t.status = .faulted →
    ∃ code param value, t = { s with
      status := .faulted
      fault := some
        { code := code, fpc := s.pc, word := s.mem.read s.pc, param := param, value := value } }

/-- What each fault code records (60_exceptions.md R106): its parameter, and a value of the kind the table gives it. Rests on the spec's decisions D3, D4 and D20. -/
def Obligations.FaultRecordsFollowTheTable : Prop :=
  ∀ (s t : State) (r : FaultRecord), s.status.live = true → step s = .next t →
    t.status = .faulted → t.fault = some r →
    match r.code with
    | .negativeAddress => r.param ≠ none ∧ r.value < 0
    | .invalidMode => r.param ≠ none ∧ 0 ≤ r.value ∧ r.value ≤ 9
    | .unknownOpcode => r.param = none ∧ r.value = (s.mem.read s.pc).toInt
    | .arithmeticOverflow => r.param = none ∧ ¬ InI64 r.value ∧ s.config.overflow = .fault
    | .addressOverflow => (addrMax : Int) < r.value

/-! ## Whole-machine rules -/

/-- Every step keeps the invariant: canonical memory in Addr, pc in Addr (10_state.md R17), fault record and status in agreement (R20). Rests on the spec's decisions D3, D7, D9 and D20 and log entry 3. -/
def Obligations.StepKeepsTheInvariant : Prop :=
  ∀ s t : State, EngineInvariant s → step s = .next t → EngineInvariant t

/-- Every host command keeps the invariant, and so does constructing an instance from any image under any parameters. Rests on the spec's decisions D7, D9, D13 and D18 and log entry 3. -/
def Obligations.CommandsKeepTheInvariant : Prop :=
  (∀ (cfg : Config) (image : Image), EngineInvariant (State.construct cfg image)) ∧
  ∀ (fuel : Nat) (c : Command) (s t : State) (reply : Reply),
    EngineInvariant s → command fuel c s = .completed reply t → EngineInvariant t

/-- Reset meets the invariant. Rests on log entry 8 (reset is construction from the empty image). -/
def Obligations.ResetMeetsTheInvariant : Prop := EngineInvariant State.reset

/-- The fetch never faults: in every state that meets the invariant the step answers a next state (40_execution_cycle.md R63). Rests on log entries 4 and 5 and R63's derived sentence. -/
def Obligations.StepAlwaysAnswers : Prop :=
  ∀ s : State, EngineInvariant s → ∃ t, step s = .next t

/-- At most one memory word changes in a step (20_memory.md R39). Rests on the spec's decision D8. -/
def Obligations.AtMostOneWordChanges : Prop :=
  ∀ (s t : State) (n m : Nat), step s = .next t → t.mem.read n ≠ s.mem.read n →
    t.mem.read m ≠ s.mem.read m → n = m

/-- The pc changes only as R17 says: by the length of a completed instruction, or to the target value of a taken jump; it stays at a halt, a suspension, a fault and in an inert status. Rests on the spec's decisions D9 and D10. -/
def Obligations.PcMovesOnlyOnCompletion : Prop :=
  ∀ s t : State, step s = .next t →
    (t.status ≠ .running → t.pc = s.pc) ∧
    (t.status = .running → ∃ i, s.fetch = .ok i ∧
      (t.pc = s.pc + i.opcode.length ∨
        ∃ a target x, (i = .jnz a target ∨ i = .jz a target) ∧
          s.resolve 1 .source target = .ok x ∧ (t.pc : Int) = (s.operand target x).toInt))

/-- Only ARB writes the relative base (10_state.md R18). -/
def Obligations.OnlyArbWritesTheBase : Prop :=
  ∀ s t : State, step s = .next t → t.rb ≠ s.rb → ∃ a, s.fetch = .ok (.arb a)

/-- The engine takes input only from the front, one word, when an IN completes (10_state.md R21). -/
def Obligations.InputIsTakenFromTheFront : Prop :=
  ∀ s t : State, step s = .next t →
    t.iq = s.iq ∨
    ∃ v dst, s.iq = v :: t.iq ∧ s.fetch = .ok (.inp dst) ∧ t.status = .running

/-- The engine only appends to the output sequence, one word, when an OUT completes (10_state.md R22). -/
def Obligations.OutputIsAppendOnly : Prop :=
  ∀ s t : State, step s = .next t →
    t.oq = s.oq ∨
    ∃ v a, t.oq = s.oq ++ [v] ∧ s.fetch = .ok (.out a) ∧ t.status = .running

/-- No step and no host command changes the parameters (log entries 1 and 13: the model holds them in State; the spec says they are not state). Rests on the model's choices of log entries 1 and 13. -/
def Obligations.ParametersAreFixed : Prop :=
  (∀ s t : State, step s = .next t → t.config = s.config) ∧
  ∀ (fuel : Nat) (c : Command) (s t : State) (reply : Reply),
    command fuel c s = .completed reply t → t.config = s.config

/-- Whether the host has drained the output makes no difference to a step: it does the same, and appends the same output (46_host_interface.md R104). Rests on the spec's decision D14. -/
def Obligations.DrainingDoesNotAffectSteps : Prop :=
  ∀ s t : State, step s = .next t →
    ∃ appended, t.oq = s.oq ++ appended ∧ step s.drained = .next { t with oq := appended }

/-! ## Host interface -/

/-- R121: what construction from an image leaves. Rests on the spec's decisions D11, D17 and D21 and log entry 13. -/
def Obligations.ConstructionLoadsTheImage : Prop :=
  ∀ (cfg : Config) (image : Image),
    let s := State.construct cfg image
    (∀ (a : Nat) (h : a < image.val.length), s.mem.read a = image.val[a]) ∧
    (∀ a, image.val.length ≤ a → s.mem.read a = 0#64) ∧
    s.pc = 0 ∧ s.rb = 0#64 ∧ s.status = .running ∧ s.fault = none ∧ s.iq = [] ∧ s.oq = [] ∧
    ∀ (fuel : Nat) (old : State), command fuel (.construct image) old =
      .completed .done (State.construct old.config image)

/-- R100, R101: the host port. MEM_READ answers the word and changes nothing; MEM_WRITE changes that word and nothing else; a negative address is an answer to the host and changes nothing. Rests on the spec's decisions D12 and D13. -/
def Obligations.HostMemoryPort : Prop :=
  ∀ (fuel : Nat) (a v : Word) (s : State),
    (0 ≤ a.toInt →
      command fuel (.memRead a) s = .completed (.word (s.mem.read a.toInt.toNat)) s ∧
      command fuel (.memWrite a v) s =
        .completed .done { s with mem := s.mem.write a.toInt.toNat v }) ∧
    (a.toInt < 0 →
      command fuel (.memRead a) s = .completed (.negativeAddress a) s ∧
      command fuel (.memWrite a v) s = .completed (.negativeAddress a) s)

/-- R94, R98, R99: pushing, draining and peeking, in every status. Rests on the spec's decision D18 for a stopped engine. -/
def Obligations.QueueCommands : Prop :=
  ∀ (fuel : Nat) (v : Word) (vs : List Word) (s : State),
    command fuel (.pushInput v) s = .completed .done { s with iq := s.iq ++ [v] } ∧
    command fuel (.pushInputs vs) s = .completed .done { s with iq := s.iq ++ vs } ∧
    command fuel .drainOutput s = .completed (.output s.oq) { s with oq := [] } ∧
    command fuel .peekOutput s = .completed (.output s.oq) s

/-- The loop of RUN (40_execution_cycle.md R77): inert when Halted or Faulted, else one step, and on from there while the status is Running. Rests on the spec's decision D22. -/
def Obligations.RunIsThePostTestLoop : Prop :=
  ∀ s t : State,
    (s.status.live = false → (RunEnds s t ↔ t = s)) ∧
    (s.status.live = true → (RunEnds s t ↔ ∃ u, step s = .next u ∧
      ((u.status ≠ .running ∧ t = u) ∨ (u.status = .running ∧ RunEnds u t))))

/-- Allowing a RUN more steps changes no answer it has given: running out of steps is no answer (40_execution_cycle.md R78). Rests on the spec's decision D25 and log entry 10. -/
def Obligations.MoreStepsKeepTheAnswer : Prop :=
  ∀ (k n : Nat) (s t : State) (reply : Reply),
    runFor k s = .completed reply t → runFor (k + n) s = .completed reply t

/-- R128: a RUN of a state that meets the invariant ends Halted, WaitingForInput or Faulted, in one state only, or never ends, and not both. Rests on the spec's decisions D7 and D25. -/
def Obligations.RunEndsInOneOfFourWays : Prop :=
  ∀ s : State, EngineInvariant s →
    ((∃ t, RunEnds s t) ↔ ¬ RunNeverEnds s) ∧
    (∀ t u, RunEnds s t → RunEnds s u → t = u) ∧
    ∀ t, RunEnds s t →
      t.status = .halted ∨ t.status = .waitingForInput ∨ t.status = .faulted

/-- A running engine whose step leaves it where it was never ends its RUN, as a jump to itself does (40_execution_cycle.md R78, 43_branch.md R85). Rests on the spec's decision D25. -/
def Obligations.SelfLoopNeverEnds : Prop :=
  (∀ s : State, s.status = .running → step s = .next s → RunNeverEnds s) ∧
  ∀ (s : State) (a target : Param) (x y : Nat), s.status = .running → s.pc ≤ addrMax →
    s.fetch = .ok (.jnz a target) → ResolvesTo s 0 .source a x →
    ResolvesTo s 1 .source target y → (s.operand a x).toInt ≠ 0 →
    (s.operand target y).toInt = (s.pc : Int) → RunNeverEnds s

/-- R96: RESUME pushes and then runs; on a Halted or Faulted engine it only pushes. Rests on the spec's decisions D18 and D22. -/
def Obligations.ResumeIsPushThenRun : Prop :=
  ∀ (fuel : Nat) (vs : List Word) (s : State),
    command fuel (.resume vs) s = command fuel .run { s with iq := s.iq ++ vs } ∧
    (s.status = .halted ∨ s.status = .faulted → command fuel (.resume vs) s =
      .completed (.status s.status s.fault) { s with iq := s.iq ++ vs })

/-- R103: input supplied early and input supplied on demand give the same state and the same output. Rests on R103, which the spec derives from R75, R79 and R83. -/
def Obligations.EarlyInputEqualsInputOnDemand : Prop :=
  ∀ (s u t : State) (v : Word) (r : List Word),
    RunEnds s u → u.status = .waitingForInput →
    RunEnds { u with iq := u.iq ++ (v :: r) } t →
    RunEnds { s with iq := s.iq ++ (v :: r) } t

/-- A command to one engine changes no other: every other handle holds the instance it held, or none as before (46_host_interface.md R92, R105). Rests on the spec's decision D12 and log entry 14. -/
def Obligations.CommandTouchesOneEngine : Prop :=
  ∀ (es es' : Engines) (fuel k : Nat) (c : Command) (reply : Reply),
    es.issue fuel k c = some (reply, es') →
    es'.length = es.length ∧ (∀ j, j ≠ k → es'.engine j = es.engine j) ∧
    ∃ s t, es.engine k = some s ∧ es'.engine k = some t ∧ command fuel c s = .completed reply t

/-- Discarding an engine, at whatever status, has no effect on the others: its handle holds none, answers no command any more and is given to no later instance (46_host_interface.md R105). Rests on log entry 14. -/
def Obligations.DiscardTouchesOneEngine : Prop :=
  ∀ (es : Engines) (k : Nat),
    (es.discard k).engine k = none ∧ (∀ j, j ≠ k → (es.discard k).engine j = es.engine j) ∧
    (∀ fuel c, (es.discard k).issue fuel k c = none) ∧
    (k < es.length → ∀ cfg image, ((es.discard k).construct cfg image).engine k = none)

/-- Constructing one more engine changes no other, and the new one is in its reset state (46_host_interface.md R93, R105). Rests on log entry 14. -/
def Obligations.ConstructTouchesNoOtherEngine : Prop :=
  ∀ (es : Engines) (cfg : Config) (image : Image),
    (∀ j s, es.engine j = some s → (es.construct cfg image).engine j = some s) ∧
    es.engine es.length = none ∧
    (es.construct cfg image).engine es.length = some (State.construct cfg image)
end

