-- ==== Sys2Proof/Laws/Engines.lean ====
section
/-! SUPPORT. Which instance stands under which handle after each thing the host does with several (46_host_interface.md R105). -/

namespace Sys2Proof.Machine

/-- Where an instance stands under a handle, the handle is one the host has given out. -/
theorem Engines.lt_length {es : Engines} {k : Nat} {s : State} (h : es.engine k = some s) :
    k < es.length := by
  by_contra hk
  simp [Engines.engine, List.getElem?_eq_none (Nat.le_of_not_lt hk)] at h

/-- Replacing what stands under one handle: that handle holds it, and every other handle what it held. -/
theorem Engines.engine_set (es : Engines) (k j : Nat) (o : Option State) (hk : k < es.length) :
    Engines.engine (es.set k o) j = if j = k then o else es.engine j := by
  simp only [Engines.engine, List.getElem?_set]
  by_cases hj : j = k
  · simp [hj, hk]
  · simp [hj, Ne.symm hj]

/-- A discarded instance is gone, and every other one as it was. -/
@[simp] theorem Engines.engine_discard (es : Engines) (k j : Nat) :
    (es.discard k).engine j = if j = k then none else es.engine j := by
  by_cases hk : k < es.length
  · exact Engines.engine_set es k j none hk
  · have hs : es.set k none = es := List.set_eq_of_length_le (Nat.le_of_not_lt hk)
    rw [Engines.discard, hs]
    split
    · rename_i hj
      simp [Engines.engine, hj, List.getElem?_eq_none (Nat.le_of_not_lt hk)]
    · rfl

/-- A constructed instance stands under the next handle, and every other one as it was. -/
@[simp] theorem Engines.engine_construct (es : Engines) (cfg : Config) (image : Image) (j : Nat) :
    (es.construct cfg image).engine j =
      if j = es.length then some (State.construct cfg image) else es.engine j := by
  simp only [Engines.engine, Engines.construct, List.getElem?_append]
  split_ifs with h1 h2 h2
  · omega
  · rfl
  · simp [h2]
  · have h3 : j - es.length ≠ 0 := by omega
    have h4 : es[j]? = none := List.getElem?_eq_none (by omega)
    rw [h4, List.getElem?_eq_none (by simp; omega)]

/-- Everything a command to one of several instances can do. -/
theorem Engines.issue_eq_some {es es' : Engines} {fuel k : Nat} {c : Command} {reply : Reply} :
    es.issue fuel k c = some (reply, es') ↔
      ∃ s t, es.engine k = some s ∧ command fuel c s = .completed reply t ∧
        es' = es.set k (some t) := by
  constructor
  · intro h
    unfold Engines.issue at h
    split at h
    · cases h
    · rename_i s hs
      split at h
      · rename_i r t hc
        cases h
        exact ⟨s, t, hs, hc, rfl⟩
      · cases h
      · cases h
  · rintro ⟨s, t, hs, hc, rfl⟩
    simp [Engines.issue, hs, hc]

end Sys2Proof.Machine
end

