-- ==== Sys2Proof/Laws/Memory.lean ====
section
/-! SUPPORT. The laws of memory: read after write, and every operation keeps the canonical form. -/

namespace Sys2Proof.Machine

@[simp] theorem Memory.read_nil (a : Nat) : Memory.read [] a = 0#64 := rfl

@[simp] theorem Memory.read_cons (c : Nat × Word) (m : Memory) (a : Nat) :
    Memory.read (c :: m) a = if a = c.1 then c.2 else Memory.read m a := rfl

theorem Memory.read_erase (m : Memory) (a b : Nat) :
    (m.erase a).read b = if b = a then 0#64 else m.read b := by
  induction m with
  | nil => simp [Memory.erase]
  | cons c m ih =>
    simp only [Memory.erase] at ih
    by_cases hc : c.1 = a
    · simp [Memory.erase, hc, ih]; split <;> rfl
    · have hne : (c.1 != a) = true := by simpa using hc
      simp only [Memory.erase, List.filter_cons, hne, if_true, Memory.read_cons, ih]
      split_ifs <;> simp_all

theorem Memory.read_insert (m : Memory) (a b : Nat) (v : Word) (h : ∀ c ∈ m, c.1 ≠ a) :
    (m.insert a v).read b = if b = a then v else m.read b := by
  induction m with
  | nil => simp [Memory.insert]
  | cons c m ih =>
    have hc : c.1 ≠ a := h c (by simp)
    have ih := ih fun d hd => h d (by simp [hd])
    obtain ⟨k, u⟩ := c
    simp only [Memory.insert]
    split
    · simp
    · simp only [Memory.read_cons, ih]
      split_ifs <;> simp_all

theorem Memory.erase_ne (m : Memory) (a : Nat) : ∀ c ∈ m.erase a, c.1 ≠ a := by
  intro c hc
  simpa using (List.mem_filter.mp hc).2

/-- A read after a write (20_memory.md R30, R31): the word written there, and elsewhere what was there. -/
theorem Memory.read_write (m : Memory) (a b : Nat) (v : Word) :
    (m.write a v).read b = if b = a then v else m.read b := by
  unfold Memory.write
  split
  · rename_i h; rw [Memory.read_erase, h]
  · rw [Memory.read_insert _ _ _ _ (Memory.erase_ne m a), Memory.read_erase]
    split_ifs <;> rfl

@[simp] theorem Memory.read_write_same (m : Memory) (a : Nat) (v : Word) :
    (m.write a v).read a = v := by simp [Memory.read_write]

theorem Memory.read_write_of_ne (m : Memory) {a b : Nat} (v : Word) (h : b ≠ a) :
    (m.write a v).read b = m.read b := by simp [Memory.read_write, h]

theorem Memory.wf_nil : Memory.wf [] := by simp [Memory.wf]

theorem Memory.wf_erase {m : Memory} (h : m.wf) (a : Nat) : (m.erase a).wf :=
  ⟨h.1.filter _, fun c hc => h.2 c (List.mem_filter.mp hc).1⟩

theorem Memory.mem_insert {m : Memory} {a : Nat} {v : Word} {c : Nat × Word}
    (h : c ∈ m.insert a v) : c = (a, v) ∨ c ∈ m := by
  induction m with
  | nil => simpa [Memory.insert] using h
  | cons d m ih =>
    obtain ⟨k, u⟩ := d
    simp only [Memory.insert] at h
    split at h
    · simpa using h
    · rcases List.mem_cons.mp h with h | h
      · exact .inr (by simp [h])
      · rcases ih h with h | h
        · exact .inl h
        · exact .inr (by simp [h])

theorem Memory.wf_insert {m : Memory} (h : m.wf) {a : Nat} {v : Word} (hm : ∀ c ∈ m, c.1 ≠ a)
    (ha : a ≤ addrMax) (hv : v ≠ 0#64) : (m.insert a v).wf := by
  refine ⟨?_, fun c hc => ?_⟩
  · have hp := h.1
    clear h
    induction m with
    | nil => simp [Memory.insert]
    | cons d m ih =>
      obtain ⟨k, u⟩ := d
      have hk : k ≠ a := hm (k, u) (by simp)
      have hp' := List.pairwise_cons.mp hp
      simp only [Memory.insert]
      split
      · rename_i hlt
        refine List.pairwise_cons.mpr ⟨fun c hc => ?_, hp⟩
        rcases List.mem_cons.mp hc with rfl | hc
        · exact hlt
        · exact Nat.lt_trans hlt (hp'.1 c hc)
      · rename_i hge
        refine List.pairwise_cons.mpr ⟨fun c hc => ?_, ih (fun c hc => hm c (by simp [hc])) hp'.2⟩
        rcases Memory.mem_insert hc with rfl | hc
        · show k < a; omega
        · exact hp'.1 c hc
  · rcases Memory.mem_insert hc with rfl | hc
    · exact ⟨ha, hv⟩
    · exact h.2 c hc

/-- A write to an address in Addr keeps the canonical form. -/
theorem Memory.wf_write {m : Memory} (h : m.wf) {a : Nat} (ha : a ≤ addrMax) (v : Word) :
    (m.write a v).wf := by
  unfold Memory.write
  split
  · exact Memory.wf_erase h a
  · exact Memory.wf_insert (Memory.wf_erase h a) (Memory.erase_ne m a) ha (by assumption)

theorem Memory.le_of_mem_ofImage {a : Nat} {vs : List Word} {c : Nat × Word}
    (h : c ∈ Memory.ofImage a vs) : a ≤ c.1 ∧ c.1 < a + vs.length ∧ c.2 ≠ 0#64 := by
  induction vs generalizing a with
  | nil => simp [Memory.ofImage] at h
  | cons v vs ih =>
    simp only [Memory.ofImage] at h
    split at h
    · have := ih h; simp only [List.length_cons]; exact ⟨by omega, by omega, this.2.2⟩
    · rcases List.mem_cons.mp h with rfl | h
      · simpa
      · have := ih h; simp only [List.length_cons]; exact ⟨by omega, by omega, this.2.2⟩

/-- A program image that fits in Addr is a canonical memory (70_reset_and_hazards.md R121). -/
theorem Memory.wf_ofImage (a : Nat) (vs : List Word) (h : a + vs.length ≤ addrMax + 1) :
    (Memory.ofImage a vs).wf := by
  refine ⟨?_, fun c hc => ?_⟩
  · clear h
    induction vs generalizing a with
    | nil => simp [Memory.ofImage]
    | cons v vs ih =>
      simp only [Memory.ofImage]
      split
      · exact ih _
      · refine List.pairwise_cons.mpr ⟨fun c hc => ?_, ih _⟩
        have := Memory.le_of_mem_ofImage hc
        show a < c.1; omega
  · have := Memory.le_of_mem_ofImage hc
    exact ⟨by omega, this.2.2⟩

/-- Placing words keeps the canonical form: a word past the end of Addr is left out. -/
theorem Memory.wf_writeWords {m : Memory} (h : m.wf) (a : Nat) (vs : List Word) :
    (m.writeWords a vs).wf := by
  induction vs generalizing m a with
  | nil => exact h
  | cons v vs ih =>
    simp only [Memory.writeWords]
    split
    · exact ih (Memory.wf_write h (by assumption) v) _
    · exact ih h _

/-- What the address check answers (20_memory.md R30, 40_execution_cycle.md R71). -/
theorem checkAddress_eq_ok {param : Option ParamIndex} {a : Int} {n : Nat} :
    checkAddress param a = .ok n ↔ a = (n : Int) ∧ n ≤ addrMax := by
  unfold checkAddress
  constructor
  · intro h
    split at h
    · cases h
    · split at h
      · cases h
      · cases h; omega
  · rintro ⟨rfl, h⟩
    rw [if_neg (by omega), if_neg (by omega)]
    simp

theorem memWrite_wf {m m' : Memory} (h : m.wf) {a : Int} {v : Word} (hw : memWrite m a v = .ok m') :
    m'.wf := by
  unfold memWrite at hw
  split at hw
  · cases hw
  · rename_i n hn
    cases hw
    exact Memory.wf_write h (checkAddress_eq_ok.mp hn).2 v

end Sys2Proof.Machine
end

