-- ==== Sys2Proof/Laws/State.lean ====
section
/-! SUPPORT. What each update of the state does to each field: one lemma per field per update. -/

namespace Sys2Proof.Machine

/-! `State.store` -/

@[simp] theorem State.store_config (s : State) (a : Nat) (v : Word) : (s.store a v).config = s.config := rfl
@[simp] theorem State.store_mem (s : State) (a : Nat) (v : Word) : (s.store a v).mem = s.mem.write a v := rfl
@[simp] theorem State.store_pc (s : State) (a : Nat) (v : Word) : (s.store a v).pc = s.pc := rfl
@[simp] theorem State.store_rb (s : State) (a : Nat) (v : Word) : (s.store a v).rb = s.rb := rfl
@[simp] theorem State.store_status (s : State) (a : Nat) (v : Word) : (s.store a v).status = s.status := rfl
@[simp] theorem State.store_fault (s : State) (a : Nat) (v : Word) : (s.store a v).fault = s.fault := rfl
@[simp] theorem State.store_iq (s : State) (a : Nat) (v : Word) : (s.store a v).iq = s.iq := rfl
@[simp] theorem State.store_oq (s : State) (a : Nat) (v : Word) : (s.store a v).oq = s.oq := rfl

/-! `State.setRb` -/

@[simp] theorem State.setRb_config (s : State) (v : Word) : (s.setRb v).config = s.config := rfl
@[simp] theorem State.setRb_mem (s : State) (v : Word) : (s.setRb v).mem = s.mem := rfl
@[simp] theorem State.setRb_pc (s : State) (v : Word) : (s.setRb v).pc = s.pc := rfl
@[simp] theorem State.setRb_rb (s : State) (v : Word) : (s.setRb v).rb = v := rfl
@[simp] theorem State.setRb_status (s : State) (v : Word) : (s.setRb v).status = s.status := rfl
@[simp] theorem State.setRb_fault (s : State) (v : Word) : (s.setRb v).fault = s.fault := rfl
@[simp] theorem State.setRb_iq (s : State) (v : Word) : (s.setRb v).iq = s.iq := rfl
@[simp] theorem State.setRb_oq (s : State) (v : Word) : (s.setRb v).oq = s.oq := rfl

/-! `State.emit` -/

@[simp] theorem State.emit_config (s : State) (v : Word) : (s.emit v).config = s.config := rfl
@[simp] theorem State.emit_mem (s : State) (v : Word) : (s.emit v).mem = s.mem := rfl
@[simp] theorem State.emit_pc (s : State) (v : Word) : (s.emit v).pc = s.pc := rfl
@[simp] theorem State.emit_rb (s : State) (v : Word) : (s.emit v).rb = s.rb := rfl
@[simp] theorem State.emit_status (s : State) (v : Word) : (s.emit v).status = s.status := rfl
@[simp] theorem State.emit_fault (s : State) (v : Word) : (s.emit v).fault = s.fault := rfl
@[simp] theorem State.emit_iq (s : State) (v : Word) : (s.emit v).iq = s.iq := rfl
@[simp] theorem State.emit_oq (s : State) (v : Word) : (s.emit v).oq = s.oq ++ [v] := rfl

/-! `State.setInput` -/

@[simp] theorem State.setInput_config (s : State) (rest : List Word) : (s.setInput rest).config = s.config := rfl
@[simp] theorem State.setInput_mem (s : State) (rest : List Word) : (s.setInput rest).mem = s.mem := rfl
@[simp] theorem State.setInput_pc (s : State) (rest : List Word) : (s.setInput rest).pc = s.pc := rfl
@[simp] theorem State.setInput_rb (s : State) (rest : List Word) : (s.setInput rest).rb = s.rb := rfl
@[simp] theorem State.setInput_status (s : State) (rest : List Word) : (s.setInput rest).status = s.status := rfl
@[simp] theorem State.setInput_fault (s : State) (rest : List Word) : (s.setInput rest).fault = s.fault := rfl
@[simp] theorem State.setInput_iq (s : State) (rest : List Word) : (s.setInput rest).iq = rest := rfl
@[simp] theorem State.setInput_oq (s : State) (rest : List Word) : (s.setInput rest).oq = s.oq := rfl

/-! `State.retire` -/

@[simp] theorem State.retire_config (s : State) (next : Nat) : (s.retire next).config = s.config := rfl
@[simp] theorem State.retire_mem (s : State) (next : Nat) : (s.retire next).mem = s.mem := rfl
@[simp] theorem State.retire_pc (s : State) (next : Nat) : (s.retire next).pc = next := rfl
@[simp] theorem State.retire_rb (s : State) (next : Nat) : (s.retire next).rb = s.rb := rfl
@[simp] theorem State.retire_status (s : State) (next : Nat) : (s.retire next).status = .running := rfl
@[simp] theorem State.retire_fault (s : State) (next : Nat) : (s.retire next).fault = s.fault := rfl
@[simp] theorem State.retire_iq (s : State) (next : Nat) : (s.retire next).iq = s.iq := rfl
@[simp] theorem State.retire_oq (s : State) (next : Nat) : (s.retire next).oq = s.oq := rfl

/-! `State.suspend` -/

@[simp] theorem State.suspend_config (s : State) : s.suspend.config = s.config := rfl
@[simp] theorem State.suspend_mem (s : State) : s.suspend.mem = s.mem := rfl
@[simp] theorem State.suspend_pc (s : State) : s.suspend.pc = s.pc := rfl
@[simp] theorem State.suspend_rb (s : State) : s.suspend.rb = s.rb := rfl
@[simp] theorem State.suspend_status (s : State) : s.suspend.status = .waitingForInput := rfl
@[simp] theorem State.suspend_fault (s : State) : s.suspend.fault = s.fault := rfl
@[simp] theorem State.suspend_iq (s : State) : s.suspend.iq = s.iq := rfl
@[simp] theorem State.suspend_oq (s : State) : s.suspend.oq = s.oq := rfl

/-! `State.halt` -/

@[simp] theorem State.halt_config (s : State) : s.halt.config = s.config := rfl
@[simp] theorem State.halt_mem (s : State) : s.halt.mem = s.mem := rfl
@[simp] theorem State.halt_pc (s : State) : s.halt.pc = s.pc := rfl
@[simp] theorem State.halt_rb (s : State) : s.halt.rb = s.rb := rfl
@[simp] theorem State.halt_status (s : State) : s.halt.status = .halted := rfl
@[simp] theorem State.halt_fault (s : State) : s.halt.fault = s.fault := rfl
@[simp] theorem State.halt_iq (s : State) : s.halt.iq = s.iq := rfl
@[simp] theorem State.halt_oq (s : State) : s.halt.oq = s.oq := rfl

/-! `State.raise` -/

@[simp] theorem State.raise_config (s : State) (e : Raise) : (s.raise e).config = s.config := rfl
@[simp] theorem State.raise_mem (s : State) (e : Raise) : (s.raise e).mem = s.mem := rfl
@[simp] theorem State.raise_pc (s : State) (e : Raise) : (s.raise e).pc = s.pc := rfl
@[simp] theorem State.raise_rb (s : State) (e : Raise) : (s.raise e).rb = s.rb := rfl
@[simp] theorem State.raise_status (s : State) (e : Raise) : (s.raise e).status = .faulted := rfl
@[simp] theorem State.raise_fault (s : State) (e : Raise) : (s.raise e).fault = some ⟨e.code, s.pc, s.mem.read s.pc, e.param, e.value⟩ := rfl
@[simp] theorem State.raise_iq (s : State) (e : Raise) : (s.raise e).iq = s.iq := rfl
@[simp] theorem State.raise_oq (s : State) (e : Raise) : (s.raise e).oq = s.oq := rfl

/-! `State.pushInputs` -/

@[simp] theorem State.pushInputs_config (s : State) (vs : List Word) : (s.pushInputs vs).config = s.config := rfl
@[simp] theorem State.pushInputs_mem (s : State) (vs : List Word) : (s.pushInputs vs).mem = s.mem := rfl
@[simp] theorem State.pushInputs_pc (s : State) (vs : List Word) : (s.pushInputs vs).pc = s.pc := rfl
@[simp] theorem State.pushInputs_rb (s : State) (vs : List Word) : (s.pushInputs vs).rb = s.rb := rfl
@[simp] theorem State.pushInputs_status (s : State) (vs : List Word) : (s.pushInputs vs).status = s.status := rfl
@[simp] theorem State.pushInputs_fault (s : State) (vs : List Word) : (s.pushInputs vs).fault = s.fault := rfl
@[simp] theorem State.pushInputs_iq (s : State) (vs : List Word) : (s.pushInputs vs).iq = s.iq ++ vs := rfl
@[simp] theorem State.pushInputs_oq (s : State) (vs : List Word) : (s.pushInputs vs).oq = s.oq := rfl

/-! `State.drained` -/

@[simp] theorem State.drained_config (s : State) : s.drained.config = s.config := rfl
@[simp] theorem State.drained_mem (s : State) : s.drained.mem = s.mem := rfl
@[simp] theorem State.drained_pc (s : State) : s.drained.pc = s.pc := rfl
@[simp] theorem State.drained_rb (s : State) : s.drained.rb = s.rb := rfl
@[simp] theorem State.drained_status (s : State) : s.drained.status = s.status := rfl
@[simp] theorem State.drained_fault (s : State) : s.drained.fault = s.fault := rfl
@[simp] theorem State.drained_iq (s : State) : s.drained.iq = s.iq := rfl
@[simp] theorem State.drained_oq (s : State) : s.drained.oq = [] := rfl

end Sys2Proof.Machine
end

