-- ==== Sys2Proof/Laws/Exec.lean ====
section
/-! SUPPORT. What each shared operation and each step can do, said once. -/

namespace Sys2Proof.Machine

/-- Everything `conclude` can answer: the committed state, or the entry of the fault. -/
theorem State.conclude_eq_next {s t : State} {r : Except Raise State} :
    s.conclude r = .next t ↔ r = .ok t ∨ ∃ e, r = .error e ∧ t = s.raise e := by
  cases r <;> simp [State.conclude, eq_comm]

@[simp] theorem State.conclude_ok (s t : State) : s.conclude (.ok t) = .next t := rfl

@[simp] theorem State.conclude_error (s : State) (e : Raise) :
    s.conclude (.error e) = .next (s.raise e) := rfl

/-- A chain of checks answers a result exactly where its first check does and the rest does. -/
theorem except_bind_eq_ok {ε α β : Type} {x : Except ε α} {f : α → Except ε β} {b : β} :
    (x >>= f) = .ok b ↔ ∃ a, x = .ok a ∧ f a = .ok b := by
  cases x <;> simp [bind, Except.bind]

@[simp] theorem except_bind_ok {ε α β : Type} (a : α) (f : α → Except ε β) :
    ((Except.ok a : Except ε α) >>= f) = f a := rfl

@[simp] theorem except_bind_error {ε α β : Type} (e : ε) (f : α → Except ε β) :
    ((Except.error e : Except ε α) >>= f) = .error e := rfl

/-- Where the resolver answers an address, every check has passed (40_execution_cycle.md R65 to R71). -/
theorem State.resolve_ok {s : State} {i : ParamIndex} {role : Role} {p : Param} {a : Nat}
    (h : s.resolve i role p = .ok a) : ResolvesTo s i role p a := by
  unfold State.resolve at h
  split_ifs at h with h1 h2 h3
  obtain ⟨h4, h5⟩ := checkAddress_eq_ok.mp h
  simp only [Bool.not_eq_true', Bool.not_eq_false] at h1
  simp only [Bool.not_eq_true] at h2
  exact ⟨by rw [Config.modeLegal, h1, h2]; rfl, by omega, h4, h5⟩

/-- An address the resolver answers lies in Addr (40_execution_cycle.md R71). -/
theorem State.resolve_le {s : State} {i : ParamIndex} {role : Role} {p : Param} {a : Nat}
    (h : s.resolve i role p = .ok a) : a ≤ addrMax := (State.resolve_ok h).2.2.2

/-- Where the fall-through answers, it is `pc + 1 + n`, in Addr (40_execution_cycle.md R74). -/
theorem State.fallthrough_eq_ok {s : State} {n next : Nat} :
    s.fallthrough n = .ok next ↔ next = s.pc + 1 + n ∧ next ≤ addrMax := by
  unfold State.fallthrough
  constructor
  · intro h
    dsimp only at h
    split at h
    · cases h
    · cases h; exact ⟨rfl, by omega⟩
  · rintro ⟨rfl, h⟩
    rw [if_neg (by omega)]

/-- Where a jump target answers, it is the value itself, in Addr (43_branch.md R87). -/
theorem jumpTarget_eq_ok {w : Word} {n : Nat} :
    jumpTarget w = .ok n ↔ w.toInt = (n : Int) := by
  unfold jumpTarget
  constructor
  · intro h
    split at h
    · cases h
    · cases h; omega
  · intro h
    rw [if_neg (by omega), h]; simp

theorem Word.toInt_le (w : Word) : w.toInt ≤ (addrMax : Int) := by
  have := BitVec.toInt_lt (x := w)
  simp only [addrMax]; omega

theorem Word.le_toInt (w : Word) : i64Min ≤ w.toInt := by
  have := BitVec.le_toInt (x := w)
  simp only [i64Min]; omega

/-- Every word's value lies in I64 (00_scope.md R5). -/
theorem Word.inI64 (w : Word) : InI64 w.toInt :=
  ⟨Word.le_toInt w, Word.toInt_le w⟩

theorem jumpTarget_le {w : Word} {n : Nat} (h : jumpTarget w = .ok n) : n ≤ addrMax := by
  have := Word.toInt_le w
  rw [jumpTarget_eq_ok.mp h] at this
  omega

/-- A value in I64 is the value of the word that holds it. -/
theorem Word.toInt_ofInt {v : Int} (h : InI64 v) : (Word.ofInt v).toInt = v := by
  obtain ⟨h1, h2⟩ := h
  simp only [i64Min, i64Max] at h1 h2
  unfold Word.ofInt
  rw [BitVec.toInt_ofInt, Int.bmod_def]
  simp
  omega

/-- Every value of `wrap64` lies in I64 (00_scope.md R11). -/
theorem wrap64_inI64 (v : Int) : InI64 (wrap64 v) := by
  simp only [InI64, i64Min, i64Max, wrap64]
  omega

/-- Everything the ALU can answer (41_arithmetic.md R82). -/
theorem alu_cases (cfg : Config) (v : Int) :
    (InI64 v ∧ alu cfg v = .ok (Word.ofInt v)) ∨
    (¬ InI64 v ∧ cfg.overflow = .fault ∧ alu cfg v = .error ⟨.arithmeticOverflow, none, v⟩) ∨
    (¬ InI64 v ∧ cfg.overflow = .wrap ∧ alu cfg v = .ok (Word.ofInt (wrap64 v))) := by
  by_cases h : InI64 v
  · exact .inl ⟨h, if_pos h⟩
  · cases hp : cfg.overflow
    · exact .inr (.inl ⟨h, rfl, by simp only [alu]; rw [if_neg h, hp]⟩)
    · exact .inr (.inr ⟨h, rfl, by simp only [alu]; rw [if_neg h, hp]⟩)

/-! What `exec` is for each storing instruction and each jump, over the operation they share. -/

theorem exec_add (a b dst : Param) (s : State) : exec (.add a b dst) s =
    s.binaryStore (fun x y => alu s.config (x.toInt + y.toInt)) a b dst := rfl

theorem exec_mul (a b dst : Param) (s : State) : exec (.mul a b dst) s =
    s.binaryStore (fun x y => alu s.config (x.toInt * y.toInt)) a b dst := rfl

theorem exec_lt (a b dst : Param) (s : State) : exec (.lt a b dst) s =
    s.binaryStore (fun x y => .ok (truthWord (signedLess x y))) a b dst := rfl

theorem exec_eq (a b dst : Param) (s : State) : exec (.eq a b dst) s =
    s.binaryStore (fun x y => .ok (truthWord (sameValue x y))) a b dst := rfl

theorem exec_jnz (a target : Param) (s : State) :
    exec (.jnz a target) s = s.jumpIf isNonzero a target := rfl

theorem exec_jz (a target : Param) (s : State) :
    exec (.jz a target) s = s.jumpIf isZero a target := rfl

/-- Everything a storing instruction of format F3 can do. -/
theorem State.binaryStore_cases {s t : State} {f : Word → Word → Except Raise Word}
    {a b dst : Param} (h : s.binaryStore f a b dst = .next t) :
    (∃ e, t = s.raise e) ∨
    ∃ x y d r, s.resolve 0 .source a = .ok x ∧ s.resolve 1 .source b = .ok y ∧
      s.resolve 2 .destination dst = .ok d ∧ f (s.operand a x) (s.operand b y) = .ok r ∧
      s.pc + 4 ≤ addrMax ∧ t = (s.store d r).retire (s.pc + 4) := by
  rcases State.conclude_eq_next.mp h with h | ⟨e, -, h⟩
  · right
    obtain ⟨x, hx, h⟩ := except_bind_eq_ok.mp h
    obtain ⟨y, hy, h⟩ := except_bind_eq_ok.mp h
    obtain ⟨d, hd, h⟩ := except_bind_eq_ok.mp h
    obtain ⟨r, hr, h⟩ := except_bind_eq_ok.mp h
    obtain ⟨n, hn, h⟩ := except_bind_eq_ok.mp h
    obtain ⟨rfl, hle⟩ := State.fallthrough_eq_ok.mp hn
    cases h
    exact ⟨x, y, d, r, hx, hy, hd, hr, by omega, rfl⟩
  · exact .inl ⟨e, h⟩

/-- Everything IN can do (42_io.md R83). -/
theorem execIn_cases {s t : State} {dst : Param} (h : execIn dst s = .next t) :
    (∃ e, t = s.raise e) ∨
    ∃ d, s.resolve 0 .destination dst = .ok d ∧
      ((s.iq = [] ∧ t = s.suspend) ∨
        ∃ v rest, s.iq = v :: rest ∧ s.pc + 2 ≤ addrMax ∧
          t = ((s.store d v).setInput rest).retire (s.pc + 2)) := by
  rcases State.conclude_eq_next.mp h with h | ⟨e, -, h⟩
  · right
    obtain ⟨d, hd, h⟩ := except_bind_eq_ok.mp h
    refine ⟨d, hd, ?_⟩
    unfold State.takeInput at h
    split at h
    · rename_i hq
      cases h
      exact .inl ⟨hq, rfl⟩
    · rename_i v rest hq
      split at h
      · cases h
      · rename_i n hn
        obtain ⟨rfl, hle⟩ := State.fallthrough_eq_ok.mp hn
        cases h
        exact .inr ⟨v, rest, hq, by omega, rfl⟩
  · exact .inl ⟨e, h⟩

/-- Everything OUT can do (42_io.md R84). -/
theorem execOut_cases {s t : State} {a : Param} (h : execOut a s = .next t) :
    (∃ e, t = s.raise e) ∨
    ∃ x, s.resolve 0 .source a = .ok x ∧ s.pc + 2 ≤ addrMax ∧
      t = (s.emit (s.operand a x)).retire (s.pc + 2) := by
  rcases State.conclude_eq_next.mp h with h | ⟨e, -, h⟩
  · right
    obtain ⟨x, hx, h⟩ := except_bind_eq_ok.mp h
    obtain ⟨n, hn, h⟩ := except_bind_eq_ok.mp h
    obtain ⟨rfl, hle⟩ := State.fallthrough_eq_ok.mp hn
    cases h
    exact ⟨x, hx, by omega, rfl⟩
  · exact .inl ⟨e, h⟩

/-- Everything a jump can do (43_branch.md R85 to R87). -/
theorem State.jumpIf_cases {s t : State} {cond : Word → Bool} {a target : Param}
    (h : s.jumpIf cond a target = .next t) :
    (∃ e, t = s.raise e) ∨
    ∃ x y, ∃ n : Nat, s.resolve 0 .source a = .ok x ∧ s.resolve 1 .source target = .ok y ∧
      (if cond (s.operand a x) then (s.operand target y).toInt = (n : Int) else n = s.pc + 3) ∧
      n ≤ addrMax ∧ t = s.retire n := by
  rcases State.conclude_eq_next.mp h with h | ⟨e, -, h⟩
  · right
    obtain ⟨x, hx, h⟩ := except_bind_eq_ok.mp h
    obtain ⟨y, hy, h⟩ := except_bind_eq_ok.mp h
    obtain ⟨n, hn, h⟩ := except_bind_eq_ok.mp h
    cases h
    refine ⟨x, y, n, hx, hy, ?_⟩
    unfold State.jumpNext at hn
    split at hn
    · rename_i hc
      rw [if_pos hc]
      exact ⟨jumpTarget_eq_ok.mp hn, jumpTarget_le hn, rfl⟩
    · rename_i hc
      rw [if_neg hc]
      obtain ⟨rfl, hle⟩ := State.fallthrough_eq_ok.mp hn
      exact ⟨by omega, hle, rfl⟩
  · exact .inl ⟨e, h⟩

/-- Everything ARB can do (45_base_halt.md R90). -/
theorem execArb_cases {s t : State} {a : Param} (h : execArb a s = .next t) :
    (∃ e, t = s.raise e) ∨
    ∃ x r, s.resolve 0 .source a = .ok x ∧
      alu s.config (s.rb.toInt + (s.operand a x).toInt) = .ok r ∧ s.pc + 2 ≤ addrMax ∧
      t = (s.setRb r).retire (s.pc + 2) := by
  rcases State.conclude_eq_next.mp h with h | ⟨e, -, h⟩
  · right
    obtain ⟨x, hx, h⟩ := except_bind_eq_ok.mp h
    obtain ⟨r, hr, h⟩ := except_bind_eq_ok.mp h
    obtain ⟨n, hn, h⟩ := except_bind_eq_ok.mp h
    obtain ⟨rfl, hle⟩ := State.fallthrough_eq_ok.mp hn
    cases h
    exact ⟨x, r, hx, hr, by omega, rfl⟩
  · exact .inl ⟨e, h⟩

/-- Everything an instruction can do to the state. -/
theorem exec_cases {i : Instr} {s t : State} (h : exec i s = .next t) :
    (∃ e, t = s.raise e) ∨
    (∃ d v, d ≤ addrMax ∧ s.pc + 4 ≤ addrMax ∧ t = (s.store d v).retire (s.pc + 4)) ∨
    (s.iq = [] ∧ t = s.suspend) ∨
    (∃ d v rest, d ≤ addrMax ∧ s.iq = v :: rest ∧ s.pc + 2 ≤ addrMax ∧
      t = ((s.store d v).setInput rest).retire (s.pc + 2)) ∨
    (∃ v, s.pc + 2 ≤ addrMax ∧ t = (s.emit v).retire (s.pc + 2)) ∨
    (∃ n, n ≤ addrMax ∧ t = s.retire n) ∨
    (∃ v, s.pc + 2 ≤ addrMax ∧ t = (s.setRb v).retire (s.pc + 2)) ∨
    t = s.halt := by
  have f3 : ∀ {f a b dst}, s.binaryStore f a b dst = .next t → (∃ e, t = s.raise e) ∨
      ∃ d v, d ≤ addrMax ∧ s.pc + 4 ≤ addrMax ∧ t = (s.store d v).retire (s.pc + 4) := by
    intro f a b dst h
    rcases State.binaryStore_cases h with h | ⟨_, _, d, r, -, -, hd, -, hle, h⟩
    · exact .inl h
    · exact .inr ⟨d, r, State.resolve_le hd, hle, h⟩
  have jump : ∀ {c a b}, s.jumpIf c a b = .next t → (∃ e, t = s.raise e) ∨
      ∃ n, n ≤ addrMax ∧ t = s.retire n := by
    intro c a b h
    rcases State.jumpIf_cases h with h | ⟨_, _, n, -, -, -, hn, h⟩
    · exact .inl h
    · exact .inr ⟨n, hn, h⟩
  cases i with
  | add a b dst =>
    rcases f3 (f := fun x y => alu s.config (x.toInt + y.toInt)) h with h | h
    · exact .inl h
    · exact .inr (.inl h)
  | mul a b dst =>
    rcases f3 (f := fun x y => alu s.config (x.toInt * y.toInt)) h with h | h
    · exact .inl h
    · exact .inr (.inl h)
  | lt a b dst =>
    rcases f3 (f := fun x y => .ok (truthWord (signedLess x y))) h with h | h
    · exact .inl h
    · exact .inr (.inl h)
  | eq a b dst =>
    rcases f3 (f := fun x y => .ok (truthWord (sameValue x y))) h with h | h
    · exact .inl h
    · exact .inr (.inl h)
  | inp dst =>
    rcases execIn_cases h with h | ⟨d, hd, h | ⟨v, rest, hq, hle, h⟩⟩
    · exact .inl h
    · exact .inr (.inr (.inl h))
    · exact .inr (.inr (.inr (.inl ⟨d, v, rest, State.resolve_le hd, hq, hle, h⟩)))
  | out a =>
    rcases execOut_cases h with h | ⟨_, -, hle, h⟩
    · exact .inl h
    · exact .inr (.inr (.inr (.inr (.inl ⟨_, hle, h⟩))))
  | jnz a target =>
    rcases jump (c := isNonzero) h with h | h
    · exact .inl h
    · exact .inr (.inr (.inr (.inr (.inr (.inl h)))))
  | jz a target =>
    rcases jump (c := isZero) h with h | h
    · exact .inl h
    · exact .inr (.inr (.inr (.inr (.inr (.inl h)))))
  | arb a =>
    rcases execArb_cases h with h | ⟨_, _, -, -, hle, h⟩
    · exact .inl h
    · exact .inr (.inr (.inr (.inr (.inr (.inr (.inl ⟨_, hle, h⟩))))))
  | hlt => cases h; exact .inr (.inr (.inr (.inr (.inr (.inr (.inr rfl))))))

theorem State.conclude_answers (s : State) (r : Except Raise State) : ∃ t, s.conclude r = .next t := by
  cases r
  · exact ⟨_, rfl⟩
  · exact ⟨_, rfl⟩

/-- Everything a step can do: nothing where the status is inert, the fault of a word that is no instruction, or the instruction at the pc. -/
theorem step_cases {s t : State} (h : step s = .next t) :
    (s.status.live = false ∧ t = s) ∨
    (s.status.live = true ∧ s.pc ≤ addrMax ∧
      ((∃ e, s.fetch = .error e ∧ t = s.fetchFailed e) ∨
        ∃ i, s.fetch = .ok i ∧ exec i s = .next t)) := by
  unfold step at h
  split at h
  · rename_i hl
    split at h
    · rename_i hp
      split at h
      · rename_i i hi; exact .inr ⟨hl, hp, .inr ⟨i, hi, h⟩⟩
      · rename_i e he; cases h; exact .inr ⟨hl, hp, .inl ⟨e, he, rfl⟩⟩
    · cases h
  · rename_i hl; cases h; exact .inl ⟨by simpa using hl, rfl⟩

/-- A step of a live engine is `exec` of what it fetches (40_execution_cycle.md R72). -/
theorem step_of_fetch {s : State} {i : Instr} (hl : s.status.live = true) (hp : s.pc ≤ addrMax)
    (h : s.fetch = .ok i) : step s = exec i s := by
  simp [step, hl, hp, h]

/-- A step of a live engine that fetches no instruction takes its fault (40_execution_cycle.md R64). -/
theorem step_of_fetch_error {s : State} {e : DecodeError} (hl : s.status.live = true)
    (hp : s.pc ≤ addrMax) (h : s.fetch = .error e) : step s = .next (s.fetchFailed e) := by
  simp [step, hl, hp, h]

/-- A step in an inert status changes nothing (40_execution_cycle.md R76). -/
theorem step_of_inert {s : State} (hl : s.status.live = false) : step s = .next s := by
  simp [step, hl]

/-- A fetch that finds no instruction ends in the entry of a fault. -/
theorem State.fetchFailed_eq_raise (s : State) (e : DecodeError) : ∃ r, s.fetchFailed e = s.raise r := by
  cases e
  · exact ⟨_, rfl⟩
  · exact ⟨_, rfl⟩

end Sys2Proof.Machine
end

