-- ==== Sys2Proof/Laws/PerInstr.lean ====
section
/-! SUPPORT. Statements about every instruction as syntax, one lemma per constructor. -/

namespace Sys2Proof.Laws.Encoding

/-- The encoder writes `1 + n` words (30_encoding.md R46, R61), one entry per parameter of the table's row (R51), and the canonical word (R58) has at most five digits, the low two of them the opcode. -/
def Statement (i : Instr) : Prop :=
  (encode i).length = i.opcode.length ∧
    i.params.map (fun (k, role, _) => (k, role)) = i.opcode.roles ∧
    i.canonical % 100 = i.opcode.number ∧ i.canonical < 100000

theorem digit_lt (m : Mode) : m.digit < 10 := by
  cases m with
  | undefined k => have := k.isLt; simp only [Mode.digit]; omega
  | position => decide
  | immediate => decide
  | relative => decide

theorem three (op : Nat) (h : op < 100) (a b c : Mode) :
    (op + (a.digit * 100 + (b.digit * 1000 + (c.digit * 10000 + 0)))) % 100 = op ∧
      op + (a.digit * 100 + (b.digit * 1000 + (c.digit * 10000 + 0))) < 100000 := by
  have := digit_lt a; have := digit_lt b; have := digit_lt c
  omega

theorem two (op : Nat) (h : op < 100) (a b : Mode) :
    (op + (a.digit * 100 + (b.digit * 1000 + 0))) % 100 = op ∧
      op + (a.digit * 100 + (b.digit * 1000 + 0)) < 100000 := by
  have := digit_lt a; have := digit_lt b
  omega

theorem one (op : Nat) (h : op < 100) (a : Mode) :
    (op + (a.digit * 100 + 0)) % 100 = op ∧ op + (a.digit * 100 + 0) < 100000 := by
  have := digit_lt a
  omega

theorem add (a b dst : Param) : Statement (.add a b dst) := ⟨rfl, rfl, three 1 (by decide) _ _ _⟩
theorem mul (a b dst : Param) : Statement (.mul a b dst) := ⟨rfl, rfl, three 2 (by decide) _ _ _⟩
theorem inp (dst : Param) : Statement (.inp dst) := ⟨rfl, rfl, one 3 (by decide) _⟩
theorem out (a : Param) : Statement (.out a) := ⟨rfl, rfl, one 4 (by decide) _⟩
theorem jnz (a target : Param) : Statement (.jnz a target) := ⟨rfl, rfl, two 5 (by decide) _ _⟩
theorem jz (a target : Param) : Statement (.jz a target) := ⟨rfl, rfl, two 6 (by decide) _ _⟩
theorem lt (a b dst : Param) : Statement (.lt a b dst) := ⟨rfl, rfl, three 7 (by decide) _ _ _⟩
theorem eq (a b dst : Param) : Statement (.eq a b dst) := ⟨rfl, rfl, three 8 (by decide) _ _ _⟩
theorem arb (a : Param) : Statement (.arb a) := ⟨rfl, rfl, one 9 (by decide) _⟩
theorem hlt : Statement .hlt := ⟨rfl, rfl, by decide, by decide⟩

end Sys2Proof.Laws.Encoding
end

