-- ==== Sys2Proof/Machine/Assembler.lean ====
section
/-! DEFINITION. The notation the spec writes its examples in: operands, labels, `DW` and the two pseudo-instructions, assembled to words (30_encoding.md R59, R60, R61). It is no part of the hardware (92_eei_decisions.md D16), and the machine uses nothing of it. Lines are data here: how one is spelled in characters is left out (00_scope.md R4). -/

namespace Sys2Proof.Machine

/-- The integer of an operand: written out, or a label's address (R59). -/
inductive AsmNumber where
  | num (v : Word)
  | label (name : String)
  deriving DecidableEq, Repr

/-- An operand: `[n]`, `#n` or `[rb+n]` (R59). -/
structure AsmOperand where
  mode : Mode
  number : AsmNumber
  deriving DecidableEq, Repr

/-- One line (R59, R60). -/
inductive AsmLine where
  | label (name : String)
  | dw (vs : List AsmNumber)
  | jmp (t : AsmOperand)
  | mov (s d : AsmOperand)
  | add (a b dst : AsmOperand)
  | mul (a b dst : AsmOperand)
  | inp (dst : AsmOperand)
  | out (a : AsmOperand)
  | jnz (a target : AsmOperand)
  | jz (a target : AsmOperand)
  | lt (a b dst : AsmOperand)
  | eq (a b dst : AsmOperand)
  | arb (a : AsmOperand)
  | hlt
  deriving DecidableEq, Repr

/-- How many words a line takes (R59, R60). -/
def AsmLine.size : AsmLine → Nat
  | .label _ => 0
  | .dw vs => vs.length
  | .jmp _ => 3
  | .mov _ _ => 4
  | .add _ _ _ => 4
  | .mul _ _ _ => 4
  | .inp _ => 2
  | .out _ => 2
  | .jnz _ _ => 3
  | .jz _ _ => 3
  | .lt _ _ _ => 4
  | .eq _ _ _ => 4
  | .arb _ => 2
  | .hlt => 1

/-- The labels of a program with the addresses they name: each the address of the next word (R59). -/
def asmLabels : Nat → List AsmLine → List (String × Nat)
  | _, [] => []
  | a, line :: rest =>
    match line with
    | .label name => (name, a) :: asmLabels a rest
    | .dw vs => asmLabels (a + vs.length) rest
    | other => asmLabels (a + other.size) rest

/-- The word of an operand's integer; none for a label the program does not have. -/
def AsmNumber.value (labels : List (String × Nat)) : AsmNumber → Option Word
  | .num v => some v
  | .label name => (labels.lookup name).map Word.ofNat

/-- The parameter an operand stands for (R61). -/
def AsmOperand.param (labels : List (String × Nat)) (o : AsmOperand) : Option Param :=
  (o.number.value labels).map fun v => ⟨o.mode, v⟩

/-- The words of one line (R60, R61). -/
def AsmLine.words (labels : List (String × Nat)) (line : AsmLine) : Option (List Word) :=
  let p := AsmOperand.param labels
  match line with
  | .label _ => some []
  | .dw vs => vs.mapM (AsmNumber.value labels)
  | .jmp t => do pure (encode (pseudoJmp (← p t)))
  | .mov s d => do pure (encode (pseudoMov (← p s) (← p d)))
  | .add a b dst => do pure (encode (.add (← p a) (← p b) (← p dst)))
  | .mul a b dst => do pure (encode (.mul (← p a) (← p b) (← p dst)))
  | .inp dst => do pure (encode (.inp (← p dst)))
  | .out a => do pure (encode (.out (← p a)))
  | .jnz a target => do pure (encode (.jnz (← p a) (← p target)))
  | .jz a target => do pure (encode (.jz (← p a) (← p target)))
  | .lt a b dst => do pure (encode (.lt (← p a) (← p b) (← p dst)))
  | .eq a b dst => do pure (encode (.eq (← p a) (← p b) (← p dst)))
  | .arb a => do pure (encode (.arb (← p a)))
  | .hlt => some (encode .hlt)

/-- The words of a program that is placed at address 0; none if it uses a label it does not have (R59, R61). -/
def assemble (lines : List AsmLine) : Option (List Word) :=
  (lines.mapM (AsmLine.words (asmLabels 0 lines))).map List.flatten

end Sys2Proof.Machine
end

