-- ==== Sys2Proof/Tests/Slice0.lean ====
section
/-! SUPPORT. Small tests, their results taken from spec/95_test_vectors.md and from the examples of spec/30_encoding.md, and for every obligation with hypotheses the states and operands that meet them. -/

namespace Sys2Proof.Tests

open Sys2Proof Sys2Proof.Machine

/-- Words written as integers. -/
def W (l : List Int) : List Word := l.map Word.ofInt

/-- An engine just constructed from a program, with an input channel and the default parameters. -/
def boot (p : List Int) (iq : List Int := []) : State :=
  { State.reset with mem := Memory.ofImage 0 (W p), iq := W iq }

/-- The defaults with `OVERFLOW_POLICY = Wrap`. -/
def wrapping : Config := { Config.default with overflow := .wrap }

/-- The defaults with `IMM_DEST_POLICY = WriteSlot`. -/
def writingSlot : Config := { Config.default with immDest := .writeSlot }

/-- The opcodes 1, 2 and 99 only (95_test_vectors.md L2.7). -/
def onlyAddMulHlt : Config :=
  { Config.default with
    opcodes := { add := true, mul := true, inp := false, out := false, jnz := false,
                 jz := false, lt := false, eq := false, arb := false, hlt := true } }

/-- The modes 0 and 1 only (95_test_vectors.md L2.7). -/
def noRelative : Config :=
  { Config.default with modes := { position := true, immediate := true, relative := false } }

/-- The state an outcome leaves, or the reset state where there is none. -/
def after : Result → State
  | .next t => t
  | .fault _ => State.reset
  | .refused _ => State.reset

/-- One step of an engine. -/
def go (s : State) : State := after (step s)

/-- Parameters in the three modes, and with the digit 3. -/
def pos (n : Int) : Param := ⟨.position, Word.ofInt n⟩
def imm (n : Int) : Param := ⟨.immediate, Word.ofInt n⟩
def rel (n : Int) : Param := ⟨.relative, Word.ofInt n⟩
def bad3 (n : Int) : Param := ⟨.undefined 0, Word.ofInt n⟩

/-! ## Ranges -/

/-- `ADDR_MAX = 2^63 - 1` and I64 (00_scope.md R5, R6). -/
theorem test_ranges : addrMax = 2 ^ 63 - 1 ∧ i64Max = 2 ^ 63 - 1 ∧ i64Min = -(2 ^ 63) := by decide

/-- `wrap64` at the edges (00_scope.md R11). -/
theorem test_wrap64 : wrap64 (2 ^ 63) = -(2 ^ 63) ∧ wrap64 (-(2 ^ 63) - 1) = 2 ^ 63 - 1 ∧
    wrap64 (-1) = -1 := by decide

/-! ## Decoding, one word per instruction at least (95_test_vectors.md L2.1, 30_encoding.md R59) -/

/-- `ADD [9], [10], [3]` is `1,9,10,3`. -/
theorem test_decode_add : decode Config.default (W [1, 9, 10, 3]) =
    .ok (.add (pos 9) (pos 10) (pos 3), []) := by rfl

/-- `MUL #34915192, #34915192, [7]` is `1102,34915192,34915192,7`. -/
theorem test_decode_mul : decode Config.default (W [1102, 34915192, 34915192, 7]) =
    .ok (.mul (imm 34915192) (imm 34915192) (pos 7), []) := by rfl

/-- `IN [rb-3]` is `203,-3` (L2.4). -/
theorem test_decode_inp : decode Config.default (W [203, -3, 99]) =
    .ok (.inp (rel (-3)), W [99]) := by rfl

/-- `OUT [rb-1]` is `204,-1`; the thousands digit of 3004 is not read. -/
theorem test_decode_out : decode Config.default (W [204, -1]) = .ok (.out (rel (-1)), []) ∧
    decode Config.default (W [3004, 0, 99]) = .ok (.out (pos 0), W [99]) := ⟨rfl, rfl⟩

/-- `JMP [rb+3]`, which is `JNZ #1, [rb+3]`, is `2105,1,3` (30_encoding.md R60). -/
theorem test_decode_jnz : decode Config.default (W [2105, 1, 3]) =
    .ok (.jnz (imm 1) (rel 3), []) := by rfl

/-- `JZ [101], #0` is `1006,101,0` (L1.4). -/
theorem test_decode_jz : decode Config.default (W [1006, 101, 0]) =
    .ok (.jz (pos 101) (imm 0), []) := by rfl

/-- The word 21107 is LT with the modes 1, 1, 2. -/
theorem test_decode_lt : decode Config.default (W [21107, 1, 2, 3]) =
    .ok (.lt (imm 1) (imm 2) (rel 3), []) := by rfl

/-- `EQ [15], #8, [16]` is `1008,15,8,16` (L3.4). -/
theorem test_decode_eq : decode Config.default (W [1008, 15, 8, 16]) =
    .ok (.eq (pos 15) (imm 8) (pos 16), []) := by rfl

/-- `ARB #-50` is `109,-50` (L3.2). -/
theorem test_decode_arb : decode Config.default (W [109, -50]) = .ok (.arb (imm (-50)), []) := by rfl

/-- The words 99, 199 and 100099 are HLT. -/
theorem test_decode_hlt : decode Config.default (W [99]) = .ok (.hlt, []) ∧
    decode Config.default (W [199]) = .ok (.hlt, []) ∧
    decode Config.default (W [100099]) = .ok (.hlt, []) := ⟨rfl, rfl, rfl⟩

/-- The words 0, 10, 98, 100, -1, -99 and -199 are `UnknownOpcode`. -/
theorem test_decode_unknown : (W [0, 10, 98, 100, -1, -99, -199]).map (classifyWord Config.default) =
    List.replicate 7 .unknownOpcode := by rfl

/-- The words 11101, 301 and 30001 are `InvalidMode` with these parameters and values. -/
theorem test_decode_invalid_mode :
    classifyWord Config.default (Word.ofInt 11101) = .invalidMode 2 1 ∧
    classifyWord Config.default (Word.ofInt 301) = .invalidMode 0 3 ∧
    classifyWord Config.default (Word.ofInt 30001) = .invalidMode 2 3 ∧
    classifyWord Config.default (Word.ofInt 22201) = .legal .add := by decide

/-- A list that ends inside an instruction is refused. -/
theorem test_decode_truncated : decode Config.default (W [1, 2, 3]) = .error .truncated := by rfl

/-- The encoder writes the words of R59's examples (R58, R61). -/
theorem test_encode : encode (.add (pos 9) (pos 10) (pos 3)) = W [1, 9, 10, 3] ∧
    encode (.mul (imm 34915192) (imm 34915192) (pos 7)) = W [1102, 34915192, 34915192, 7] ∧
    encode (.out (rel (-1))) = W [204, -1] ∧ encode (.arb (imm 1)) = W [109, 1] ∧
    encode .hlt = W [99] := by decide

/-! ## Well-formedness: one ill-formed term for each check -/

theorem test_wellFormed_accepts :
    (Instr.add (rel 0) (imm 1) (pos 3)).wellFormed Config.default = true := by decide

/-- An opcode outside `ENABLED_OPCODES` is refused (00_scope.md R10). -/
theorem test_wellFormed_refuses_disabled_opcode :
    (Instr.arb (pos 0)).wellFormed onlyAddMulHlt = false := by decide

/-- A digit that names no mode is refused (30_encoding.md R53). -/
theorem test_wellFormed_refuses_undefined_mode :
    (Instr.out (bad3 0)).wellFormed Config.default = false := by decide

/-- A mode outside `ENABLED_MODES` is refused (00_scope.md R10). -/
theorem test_wellFormed_refuses_disabled_mode :
    (Instr.out (rel 0)).wellFormed noRelative = false := by decide

/-- An immediate destination is refused under `Fault` and accepted under `WriteSlot` (00_scope.md R8). -/
theorem test_wellFormed_refuses_immediate_destination :
    (Instr.inp (imm 5)).wellFormed Config.default = false ∧
    (Instr.inp (imm 5)).wellFormed writingSlot = true := by decide

/-- The modes a source and a destination accept under the defaults: 18 combinations for ADD are 3 × 3 × 2 (30_encoding.md R54). -/
theorem test_modes_per_role :
    ([Mode.position, .immediate, .relative, .undefined 0].filter
      (Config.default.modeLegal .source)).length = 3 ∧
    ([Mode.position, .immediate, .relative, .undefined 0].filter
      (Config.default.modeLegal .destination)).length = 2 := by decide

/-! ## The notation (30_encoding.md R59 to R61) -/

/-- `JMP #6`, `JMP [20]`, `JMP [rb+3]`, `MOV [5], [6]` and `MOV #7, [6]` (R60). -/
theorem test_pseudo_instructions :
    encode (pseudoJmp (imm 6)) = W [1105, 1, 6] ∧ encode (pseudoJmp (pos 20)) = W [105, 1, 20] ∧
    encode (pseudoJmp (rel 3)) = W [2105, 1, 3] ∧
    encode (pseudoMov (pos 5) (pos 6)) = W [1001, 5, 0, 6] ∧
    encode (pseudoMov (imm 7) (pos 6)) = W [1101, 7, 0, 6] := by decide

/-- The first lines of the countdown program with its loop written as a label (95_test_vectors.md L3.1). -/
theorem test_assemble_label :
    assemble [.inp ⟨.position, .num (Word.ofInt 20)⟩, .label "loop",
      .out ⟨.position, .num (Word.ofInt 20)⟩,
      .jnz ⟨.position, .num (Word.ofInt 20)⟩ ⟨.immediate, .label "loop"⟩, .hlt] =
      some (W [3, 20, 4, 20, 1005, 20, 2, 99]) := by rfl

/-! ## The host's two questions -/

/-- The numbers 1 to 9 and 99 in eight bits decode with operand words of zeros. -/
theorem test_decodeTableWord :
    decodeTableWord 8 1 = some (.add (pos 0) (pos 0) (pos 0)) ∧
    decodeTableWord 8 9 = some (.arb (pos 0)) ∧ decodeTableWord 8 99 = some .hlt ∧
    decodeTableWord 8 0 = none := by decide

/-- The first step after `withFetchWord` runs the instruction: an ADD of zeros moves on by four. -/
theorem test_withFetchWord :
    step (State.reset.withFetchWord 8 99) = exec .hlt (State.reset.withFetchWord 8 99) ∧
    (go (State.reset.withFetchWord 8 1)).pc = 4 := ⟨rfl, by decide⟩

/-! ## One step of each instruction (95_test_vectors.md L2.2 to L2.7) -/

/-- `[1101,MAX,1,5,99]` under `Wrap`: `M[5] = MIN`. -/
theorem test_add_wraps :
    ((go { boot [1101, i64Max, 1, 5, 99] with config := wrapping }).mem.read 5).toInt = i64Min := by
  decide

/-- `[1101,MAX,1,5,99]`: `ArithmeticOverflow`, fpc 0, value `2^63`. -/
theorem test_add_overflows : (go (boot [1101, i64Max, 1, 5, 99])).fault =
    some ⟨.arithmeticOverflow, 0, Word.ofInt 1101, none, 2 ^ 63⟩ := by decide

/-- `[1102,-1,MIN,5,99]`: `ArithmeticOverflow`, value `2^63`. -/
theorem test_mul_overflows : (go (boot [1102, -1, i64Min, 5, 99])).fault =
    some ⟨.arithmeticOverflow, 0, Word.ofInt 1102, none, 2 ^ 63⟩ := by decide

/-- `[1102,3,-4,5,99]`: `M[5] = -12`. -/
theorem test_mul_signed : ((go (boot [1102, 3, -4, 5, 99])).mem.read 5).toInt = -12 := by decide

/-- `[3,3,99,0]` without input: WaitingForInput, nothing else changed. -/
theorem test_in_suspends :
    go (boot [3, 3, 99, 0]) = { boot [3, 3, 99, 0] with status := .waitingForInput } := by decide

/-- `[103,5,99]` without input: the fault beats the suspension. -/
theorem test_in_fault_before_suspension : (go (boot [103, 5, 99])).fault =
    some ⟨.invalidMode, 0, Word.ofInt 103, some 0, 1⟩ := by decide

/-- `[104,-5,99]`: `OQ = [-5]`. -/
theorem test_out_immediate : (go (boot [104, -5, 99])).oq = W [-5] := by decide

/-- `[204,-1,99]`: `NegativeAddress(param 0, value -1)`, `OQ = []`. -/
theorem test_out_negative_address :
    (go (boot [204, -1, 99])).fault = some ⟨.negativeAddress, 0, Word.ofInt 204, some 0, -1⟩ ∧
    (go (boot [204, -1, 99])).oq = [] := by decide

/-- `[1005,3,4,7,99]`: jump to 4. -/
theorem test_jnz_taken : (go (boot [1005, 3, 4, 7, 99])).pc = 4 := by decide

/-- `[1105,1,-1]`: `NegativeAddress(param 1, value -1)`, pc 0. -/
theorem test_jnz_negative_target :
    (go (boot [1105, 1, -1])).fault = some ⟨.negativeAddress, 0, Word.ofInt 1105, some 1, -1⟩ ∧
    (go (boot [1105, 1, -1])).pc = 0 := by decide

/-- `[1106,0,4,99,104,7,99]`: jump to 4. -/
theorem test_jz_taken : (go (boot [1106, 0, 4, 99, 104, 7, 99])).pc = 4 := by decide

/-- `[1106,1,-1,99]`: not taken, so no fault. -/
theorem test_jz_not_taken : (go (boot [1106, 1, -1, 99])).pc = 3 ∧
    (go (boot [1106, 1, -1, 99])).status = .running := by decide

/-- `[1107,MIN,MAX,5,99]`: `M[5] = 1`, the comparison is signed. -/
theorem test_lt_signed : ((go (boot [1107, i64Min, i64Max, 5, 99])).mem.read 5).toInt = 1 := by decide

/-- `[1107,0,0,5,99]`: `M[5] = 0`. -/
theorem test_lt_strict : ((go (boot [1107, 0, 0, 5, 99])).mem.read 5).toInt = 0 := by decide

/-- `[8,0,0,5,99]`: `M[5] = 1`. -/
theorem test_eq_same_word : ((go (boot [8, 0, 0, 5, 99])).mem.read 5).toInt = 1 := by decide

/-- `[1108,7,8,5,99]`: `M[5] = 0`. -/
theorem test_eq_different : ((go (boot [1108, 7, 8, 5, 99])).mem.read 5).toInt = 0 := by decide

/-- `[109,-5,99]`: rb -5. -/
theorem test_arb_negative : (go (boot [109, -5, 99])).rb.toInt = -5 := by decide

/-- The second step of `[109,MAX,109,1,99]`: `ArithmeticOverflow` at fpc 2, value `2^63`, rb still MAX. -/
theorem test_arb_overflows :
    (go (go (boot [109, i64Max, 109, 1, 99]))).fault =
      some ⟨.arithmeticOverflow, 2, Word.ofInt 109, none, 2 ^ 63⟩ ∧
    (go (go (boot [109, i64Max, 109, 1, 99]))).rb.toInt = i64Max := by decide

/-- `[199]`: Halted, pc 0. -/
theorem test_hlt : (go (boot [199])).status = .halted ∧ (go (boot [199])).pc = 0 := by decide

/-- `[]`: `UnknownOpcode`, fpc 0, word 0. -/
theorem test_empty_program : (go (boot [])).fault =
    some ⟨.unknownOpcode, 0, 0#64, none, 0⟩ := by decide

/-- `[30001,-1,0,0]`: `NegativeAddress(param 0)`, parameters are checked in order. -/
theorem test_parameters_in_order : (go (boot [30001, -1, 0, 0])).fault =
    some ⟨.negativeAddress, 0, Word.ofInt 30001, some 0, -1⟩ := by decide

/-- `[11101,2,3,0,99]` under `WriteSlot`: `M[3] = 5`, its own slot. -/
theorem test_write_slot :
    ((go { boot [11101, 2, 3, 0, 99] with config := writingSlot }).mem.read 3).toInt = 5 := by decide

/-- `[109,MAX,204,1,99]`, second step: `AddressOverflow(param 0, value 2^63)` at fpc 2. -/
theorem test_relative_sum_is_exact : (go (go (boot [109, i64Max, 204, 1, 99]))).fault =
    some ⟨.addressOverflow, 2, Word.ofInt 204, some 0, 2 ^ 63⟩ := by decide

/-- OUT at `MAX - 1`: the fall-through would be `2^63` (L2.7). -/
theorem test_fallthrough_leaves_addr :
    (go { boot [] with mem := [(addrMax - 1, 104#64), (addrMax, 5#64)], pc := addrMax - 1 }).fault =
      some ⟨.addressOverflow, addrMax - 1, 104#64, none, 2 ^ 63⟩ := by decide

/-! ## Host commands (95_test_vectors.md L1.6, L2.8) -/

/-- `[3,5,4,5,99,0]`: RUN waits at pc 0, and RESUME `[42]` then halts at pc 4 with `OQ = [42]`. -/
theorem test_suspend_resume :
    command 9 .run (boot [3, 5, 4, 5, 99, 0]) = .completed (.status .waitingForInput none)
      { boot [3, 5, 4, 5, 99, 0] with status := .waitingForInput } ∧
    command 9 (.resume (W [42])) { boot [3, 5, 4, 5, 99, 0] with status := .waitingForInput } =
      .completed (.status .halted none)
        { boot [3, 5, 4, 5, 99, 42] with pc := 4, oq := W [42], status := .halted } := by decide

/-- `MEM_READ(-1)` is an error to the host, `MEM_READ(10^18)` answers 0. -/
theorem test_mem_read :
    command 0 (.memRead (Word.ofInt (-1))) (boot [99]) =
      .completed (.negativeAddress (Word.ofInt (-1))) (boot [99]) ∧
    command 0 (.memRead (Word.ofInt (10 ^ 18))) (boot [99]) = .completed (.word 0#64) (boot [99]) := by
  decide

/-! ## Witnesses: for every obligation with hypotheses, what meets them, clause by clause -/

/-- An engine with empty memory, its pc `n` below the end of Addr. -/
def edge (n : Nat) : State := { State.reset with pc := addrMax - n }

/-- The program of L1.3 whose sum overflows. -/
def overflowing : State := boot [1101, i64Max, 1, 5, 99]

/-! ### Encoding -/

/-- An instruction with the undefined mode digit 3, and one of each length. -/
theorem witness_DecodeEncodeRoundTrip :
    Config.default.opcodeEnabled (Instr.add (rel 0) (imm (-1)) (bad3 5)).opcode = true ∧
    onlyAddMulHlt.opcodeEnabled Instr.hlt.opcode = true := by decide

theorem witness_NegativeWordIsUnknownOpcode :
    (Word.ofInt (-1)).toInt < 0 ∧ (Word.ofInt i64Min).toInt < 0 ∧
    (boot [-1]).status.live = true ∧ (boot [-1]).pc ≤ addrMax ∧
    ((boot [-1]).mem.read (boot [-1]).pc).toInt < 0 := by decide

/-- A word that selects an instruction, one that does not (98), and an opcode that is not enabled. -/
theorem witness_OpcodeMapSelectsInstruction :
    (boot [1]).status.live = true ∧ (boot [1]).pc ≤ addrMax ∧
    0 ≤ ((boot [1]).mem.read (boot [1]).pc).toInt ∧
    SelectsOpcode (boot [1]).config.opcodes (((boot [1]).mem.read 0).toNat % 100) ∧
    0 ≤ ((boot [98]).mem.read (boot [98]).pc).toInt ∧
    ¬ SelectsOpcode (boot [98]).config.opcodes (((boot [98]).mem.read 0).toNat % 100) ∧
    ¬ SelectsOpcode onlyAddMulHlt.opcodes (((boot [9]).mem.read 0).toNat % 100) :=
  ⟨by decide, by decide, by decide, by decide, by decide, by decide, by decide⟩

/-- 1 and 1000000001 for ADD, 99 and 100099 for HLT. -/
theorem witness_UnusedDigitsAreIgnored :
    (0 ≤ (1#64).toInt ∧ 0 ≤ (1000000001#64).toInt ∧ (1#64).toNat % 100 = Opcode.add.number ∧
      (1#64).toNat % 10 ^ (Opcode.add.nparams + 2) =
        (1000000001#64).toNat % 10 ^ (Opcode.add.nparams + 2) ∧
      Config.default.opcodeEnabled .add = true) ∧
    (0 ≤ (99#64).toInt ∧ 0 ≤ (100099#64).toInt ∧ (99#64).toNat % 100 = Opcode.hlt.number ∧
      (99#64).toNat % 10 ^ (Opcode.hlt.nparams + 2) =
        (100099#64).toNat % 10 ^ (Opcode.hlt.nparams + 2) ∧
      Config.default.opcodeEnabled .hlt = true) := by decide

theorem witness_DecodedFieldsAreDigits :
    decode Config.default (Word.ofInt 21107 :: W [1, 2, 3]) =
      .ok (.lt (imm 1) (imm 2) (rel 3), []) ∧
    ((2 : ParamIndex), Role.destination, rel 3) ∈ (Instr.lt (imm 1) (imm 2) (rel 3)).params :=
  ⟨rfl, by decide⟩

theorem witness_InstructionIsItsWords :
    decode Config.default (Word.ofInt 21107 :: W [1, 2, 3, 99]) =
      .ok (.lt (imm 1) (imm 2) (rel 3), W [99]) ∧
    (boot [21107, 1, 2, 3]).fetch = .ok (.lt (imm 1) (imm 2) (rel 3)) ∧
    ((2 : ParamIndex), Role.destination, rel 3) ∈ (Instr.lt (imm 1) (imm 2) (rel 3)).params :=
  ⟨rfl, rfl, by decide⟩

/-- A legal word whose step faults, an unknown one, and an invalid mode that is reported and one that is not. -/
theorem witness_WordClassDecidesTheFault :
    (overflowing.status.live = true ∧ overflowing.pc ≤ addrMax ∧
      classifyWord overflowing.config (overflowing.mem.read overflowing.pc) = .legal .add ∧
      step overflowing = .next (go overflowing) ∧ (go overflowing).status = .faulted ∧
      (go overflowing).fault = some ⟨.arithmeticOverflow, 0, Word.ofInt 1101, none, 2 ^ 63⟩) ∧
    (boot [98]).status.live = true ∧
    classifyWord Config.default ((boot [98]).mem.read 0) = .unknownOpcode ∧
    classifyWord Config.default ((boot [301]).mem.read 0) = .invalidMode 0 3 ∧
    classifyWord Config.default ((boot [30001, -1]).mem.read 0) = .invalidMode 2 3 :=
  ⟨⟨rfl, by decide, rfl, rfl, by decide, by decide⟩, rfl, rfl, rfl, rfl⟩

/-! ### Memory -/

/-- The least and the greatest address, and the integers beside them. -/
theorem witness_WriteChangesOneWord :
    (0 ≤ (0 : Int) ∧ (0 : Int) ≤ addrMax) ∧ (0 ≤ (addrMax : Int) ∧ (addrMax : Int) ≤ addrMax) ∧
    (-1 : Int) < 0 ∧ (addrMax : Int) < addrMax + 1 := by decide

theorem witness_CanonicalMemoryIsUnique :
    (Memory.write [] addrMax 7#64).wf ∧ (Memory.ofImage addrMax [7#64]).wf ∧
    ∀ a, (Memory.write [] addrMax 7#64).read a = (Memory.ofImage addrMax [7#64]).read a :=
  ⟨by decide, by decide, fun _ => rfl⟩

/-! ### Addressing resolver -/

/-- An address, and each of the five failures. -/
theorem witness_ResolverChecksInOrder :
    ResolvesTo State.reset 0 .source (pos i64Max) addrMax ∧
    FailsWith State.reset 0 .source (bad3 0) ⟨.invalidMode, some 0, 3⟩ ∧
    FailsWith State.reset 2 .destination (imm 0) ⟨.invalidMode, some 2, 1⟩ ∧
    FailsWith (edge 0) 0 .source (imm 0) ⟨.addressOverflow, some 0, 2 ^ 63⟩ ∧
    FailsWith State.reset 0 .source (pos (-1)) ⟨.negativeAddress, some 0, -1⟩ ∧
    FailsWith { State.reset with rb := 1#64 } 0 .source (rel i64Max)
      ⟨.addressOverflow, some 0, 2 ^ 63⟩ :=
  ⟨by decide, by decide, by decide, by decide, by decide, by decide⟩

theorem witness_ResolvedAddressByMode :
    (State.reset.resolve 0 .source (pos i64Max) = .ok addrMax ∧ (pos i64Max).mode = .position) ∧
    ((edge 1).resolve 0 .source (imm (-7)) = .ok addrMax ∧ (imm (-7)).mode = .immediate) ∧
    ({ State.reset with rb := Word.ofInt (-5) }.resolve 2 .destination (rel 5) = .ok 0 ∧
      (rel 5).mode = .relative) := ⟨⟨rfl, rfl⟩, ⟨rfl, rfl⟩, ⟨rfl, rfl⟩⟩

/-- The digit 3, and a mode that is not enabled. -/
theorem witness_DisallowedModeDigitRaises :
    ¬ (((bad3 0).mode.digit = 0 ∧ State.reset.config.modes.position = true) ∨
       ((bad3 0).mode.digit = 1 ∧ State.reset.config.modes.immediate = true) ∨
       ((bad3 0).mode.digit = 2 ∧ State.reset.config.modes.relative = true)) ∧
    ¬ (((rel 0).mode.digit = 0 ∧ noRelative.modes.position = true) ∨
       ((rel 0).mode.digit = 1 ∧ noRelative.modes.immediate = true) ∨
       ((rel 0).mode.digit = 2 ∧ noRelative.modes.relative = true)) := by decide

/-- Each policy, and the last slot in Addr and the first beyond it. -/
theorem witness_ImmediateDestinationPolicy :
    (imm 5).mode = .immediate ∧ State.reset.config.modes.immediate = true ∧
    State.reset.config.immDest = .fault ∧
    writingSlot.modes.immediate = true ∧ writingSlot.immDest = .writeSlot ∧
    (edge 1).pc + (0 : ParamIndex).val + 1 ≤ addrMax ∧
    addrMax < (edge 1).pc + (1 : ParamIndex).val + 1 := by decide

/-- One source parameter of each mode, in fetched instructions. -/
theorem witness_OperandIsWordAtItsAddress :
    ((boot [1101, -5, 5, 5, 99]).fetch = .ok (.add (imm (-5)) (imm 5) (pos 5)) ∧
      ((0 : ParamIndex), Role.source, imm (-5)) ∈ (Instr.add (imm (-5)) (imm 5) (pos 5)).params ∧
      (boot [1101, -5, 5, 5, 99]).resolve 0 .source (imm (-5)) = .ok 1) ∧
    ((boot [204, 1]).fetch = .ok (.out (rel 1)) ∧
      ((0 : ParamIndex), Role.source, rel 1) ∈ (Instr.out (rel 1)).params ∧
      (boot [204, 1]).resolve 0 .source (rel 1) = .ok 1) :=
  ⟨⟨rfl, by decide, rfl⟩, ⟨rfl, by decide, rfl⟩⟩

/-- Parameter 1 of three fails after parameter 0 resolved. -/
theorem f3_fails : FirstFailure State.reset
    [(0, .source, pos 0), (1, .source, bad3 0), (2, .destination, pos 0)]
    ⟨.invalidMode, some 1, 3⟩ := Or.inr ⟨⟨0, by decide⟩, Or.inl (by decide)⟩

/-- Parameter 1 of two fails after parameter 0 resolved. -/
theorem f2_fails : FirstFailure State.reset
    [(0, .source, pos 0), (1, .source, pos (-1))] ⟨.negativeAddress, some 1, -1⟩ :=
  Or.inr ⟨⟨0, by decide⟩, Or.inl (by decide)⟩

/-- The only parameter fails. -/
theorem f1_fails (role : Role) : FirstFailure State.reset [(0, role, pos (-1))]
    ⟨.negativeAddress, some 0, -1⟩ := Or.inl (by cases role <;> decide)

/-- An ADD, and an IN with an empty input channel. -/
theorem witness_FirstFailingParameterIsReported :
    FirstFailure State.reset (Instr.add (pos 0) (bad3 0) (pos 0)).params
      ⟨.invalidMode, some 1, 3⟩ ∧
    FirstFailure State.reset (Instr.inp (pos (-1))).params ⟨.negativeAddress, some 0, -1⟩ ∧
    State.reset.iq = [] := ⟨f3_fails, f1_fails .destination, rfl⟩

/-! ### Instructions -/

theorem witness_AluIsExactThenPolicy :
    InI64 i64Max ∧ InI64 i64Min ∧ ¬ InI64 (2 ^ 63) ∧ ¬ InI64 (-(2 ^ 63) - 1) ∧
    Config.default.overflow = .fault ∧ wrapping.overflow = .wrap := by decide

/-- The four-word instructions at the last pc whose fall-through is in Addr, and at the next. -/
theorem f3_resolves :
    (ResolvesTo (edge 4) 0 .source (pos 0) 0 ∧ ResolvesTo (edge 4) 1 .source (rel 0) 0 ∧
      ResolvesTo (edge 4) 2 .destination (pos i64Max) addrMax ∧ (edge 4).pc + 4 ≤ addrMax) ∧
    (ResolvesTo (edge 3) 0 .source (pos 0) 0 ∧ ResolvesTo (edge 3) 1 .source (imm 0) (addrMax - 1) ∧
      ResolvesTo (edge 3) 2 .destination (pos 0) 0 ∧ addrMax < (edge 3).pc + 4) := by decide

theorem witness_AddStoresTheSum :
    (0 ≤ (1000000001#64).toInt ∧ (1000000001#64).toNat % 100 = 1 ∧
      Config.default.opcodes.add = true) ∧
    FirstFailure State.reset (Instr.add (pos 0) (bad3 0) (pos 0)).params
      ⟨.invalidMode, some 1, 3⟩ ∧
    (ResolvesTo overflowing 0 .source (imm i64Max) 1 ∧ ResolvesTo overflowing 1 .source (imm 1) 2 ∧
      ResolvesTo overflowing 2 .destination (pos 5) 5 ∧
      ¬ InI64 ((overflowing.operand (imm i64Max) 1).toInt + (overflowing.operand (imm 1) 2).toInt) ∧
      overflowing.config.overflow = .fault) ∧
    AluGives wrapping
      ((overflowing.operand (imm i64Max) 1).toInt + (overflowing.operand (imm 1) 2).toInt)
      (Word.ofInt i64Min) ∧
    AluGives (edge 4).config (((edge 4).operand (pos 0) 0).toInt + ((edge 4).operand (rel 0) 0).toInt)
      0#64 := ⟨by decide, f3_fails, by decide, by decide, by decide⟩

/-- The multiplication of L2.2 that overflows. -/
def overflowingMul : State := boot [1102, -1, i64Min, 5, 99]

theorem witness_MulStoresTheProduct :
    (0 ≤ (1102#64).toInt ∧ (1102#64).toNat % 100 = 2 ∧ Config.default.opcodes.mul = true) ∧
    FirstFailure State.reset (Instr.mul (pos 0) (bad3 0) (pos 0)).params
      ⟨.invalidMode, some 1, 3⟩ ∧
    (ResolvesTo overflowingMul 0 .source (imm (-1)) 1 ∧
      ResolvesTo overflowingMul 1 .source (imm i64Min) 2 ∧
      ResolvesTo overflowingMul 2 .destination (pos 5) 5 ∧
      ¬ InI64 ((overflowingMul.operand (imm (-1)) 1).toInt *
        (overflowingMul.operand (imm i64Min) 2).toInt) ∧
      overflowingMul.config.overflow = .fault) ∧
    AluGives wrapping ((overflowingMul.operand (imm (-1)) 1).toInt *
      (overflowingMul.operand (imm i64Min) 2).toInt) (Word.ofInt i64Min) ∧
    AluGives (edge 4).config (((edge 4).operand (pos 0) 0).toInt * ((edge 4).operand (rel 0) 0).toInt)
      0#64 := ⟨by decide, f3_fails, by decide, by decide, by decide⟩

/-- The two-word instructions at the last pc whose fall-through is in Addr, and at the next. -/
theorem f1_resolves (role : Role) :
    (ResolvesTo (edge 2) 0 role (pos i64Max) addrMax ∧ (edge 2).pc + 2 ≤ addrMax) ∧
    (ResolvesTo (edge 1) 0 role (rel 0) 0 ∧ addrMax < (edge 1).pc + 2) := by
  cases role <;> decide

/-- An empty input channel, and one with a word. -/
theorem witness_InConsumesOrSuspends :
    (0 ≤ (1000003#64).toInt ∧ (1000003#64).toNat % 100 = 3 ∧ Config.default.opcodes.inp = true) ∧
    FirstFailure State.reset (Instr.inp (pos (-1))).params ⟨.negativeAddress, some 0, -1⟩ ∧
    ((ResolvesTo (edge 2) 0 .destination (pos i64Max) addrMax ∧ (edge 2).pc + 2 ≤ addrMax) ∧
      (ResolvesTo (edge 1) 0 .destination (rel 0) 0 ∧ addrMax < (edge 1).pc + 2)) ∧
    (edge 1).iq = [] ∧ (boot [3, 3] [7, 8]).iq = 7#64 :: [8#64] :=
  ⟨by decide, f1_fails .destination, f1_resolves .destination, rfl, by decide⟩

theorem witness_OutAppendsItsOperand :
    (0 ≤ (3004#64).toInt ∧ (3004#64).toNat % 100 = 4 ∧ Config.default.opcodes.out = true) ∧
    FirstFailure State.reset (Instr.out (pos (-1))).params ⟨.negativeAddress, some 0, -1⟩ ∧
    ((ResolvesTo (edge 2) 0 .source (pos i64Max) addrMax ∧ (edge 2).pc + 2 ≤ addrMax) ∧
      (ResolvesTo (edge 1) 0 .source (rel 0) 0 ∧ addrMax < (edge 1).pc + 2)) :=
  ⟨by decide, f1_fails .source, f1_resolves .source⟩

/-- The three-word instructions at the last pc whose fall-through is in Addr, and at the next. -/
theorem f2_resolves :
    (ResolvesTo (edge 3) 0 .source (pos 0) 0 ∧ ResolvesTo (edge 3) 1 .source (rel 0) 0 ∧
      (edge 3).pc + 3 ≤ addrMax) ∧
    (ResolvesTo (edge 2) 0 .source (pos 0) 0 ∧ ResolvesTo (edge 2) 1 .source (imm 0) addrMax ∧
      addrMax < (edge 2).pc + 3) := by decide

/-- A value that is not 0, the value 0, and the targets 0, MAX and -1. -/
theorem jump_operands :
    (State.reset.operand (imm (-1)) 1).toInt ≠ 0 ∧ ((edge 3).operand (pos 0) 0).toInt = 0 ∧
    ((edge 3).operand (imm 1) 0).toInt ≠ 0 ∧
    0 ≤ (State.reset.operand (imm 0) 2).toInt ∧ 0 ≤ (State.reset.operand (imm i64Max) 2).toInt ∧
    (State.reset.operand (imm (-1)) 2).toInt < 0 ∧ ResolvesTo State.reset 0 .source (imm (-1)) 1 ∧
    ResolvesTo State.reset 1 .source (imm i64Max) 2 := by decide

theorem witness_JnzJumpsOnNonzero :
    (0 ≤ (10005#64).toInt ∧ (10005#64).toNat % 100 = 5 ∧ Config.default.opcodes.jnz = true) ∧
    FirstFailure State.reset (Instr.jnz (pos 0) (pos (-1))).params ⟨.negativeAddress, some 1, -1⟩ ∧
    (ResolvesTo State.reset 0 .source (imm (-1)) 1 ∧ ResolvesTo State.reset 1 .source (imm i64Max) 2 ∧
      (State.reset.operand (imm (-1)) 1).toInt ≠ 0 ∧
      0 ≤ (State.reset.operand (imm i64Max) 2).toInt) ∧
    (State.reset.operand (imm (-1)) 2).toInt < 0 ∧
    (ResolvesTo (edge 3) 0 .source (pos 0) 0 ∧ ((edge 3).operand (pos 0) 0).toInt = 0 ∧
      (edge 3).pc + 3 ≤ addrMax ∧ addrMax < (edge 2).pc + 3) :=
  ⟨by decide, f2_fails, by decide, by decide, by decide⟩

theorem witness_JzJumpsOnZero :
    (0 ≤ (10006#64).toInt ∧ (10006#64).toNat % 100 = 6 ∧ Config.default.opcodes.jz = true) ∧
    FirstFailure State.reset (Instr.jz (pos 0) (pos (-1))).params ⟨.negativeAddress, some 1, -1⟩ ∧
    (ResolvesTo State.reset 0 .source (imm 0) 1 ∧ ResolvesTo State.reset 1 .source (imm i64Max) 2 ∧
      (State.reset.operand (imm 0) 1).toInt = 0 ∧
      0 ≤ (State.reset.operand (imm i64Max) 2).toInt) ∧
    (State.reset.operand (imm (-1)) 2).toInt < 0 ∧
    (ResolvesTo (edge 3) 0 .source (imm 1) (addrMax - 2) ∧
      ((edge 3).operand (imm 1) (addrMax - 2)).toInt ≠ 0 ∧
      (edge 3).pc + 3 ≤ addrMax ∧ addrMax < (edge 2).pc + 3) :=
  ⟨by decide, f2_fails, by decide, by decide, by decide⟩

theorem witness_LtStoresSignedComparison :
    (0 ≤ (21107#64).toInt ∧ (21107#64).toNat % 100 = 7 ∧ Config.default.opcodes.lt = true) ∧
    FirstFailure State.reset (Instr.lt (pos 0) (bad3 0) (pos 0)).params
      ⟨.invalidMode, some 1, 3⟩ ∧
    (ResolvesTo (edge 4) 0 .source (pos 0) 0 ∧ ResolvesTo (edge 4) 1 .source (rel 0) 0 ∧
      ResolvesTo (edge 4) 2 .destination (pos i64Max) addrMax ∧ (edge 4).pc + 4 ≤ addrMax) ∧
    (ResolvesTo (edge 3) 0 .source (pos 0) 0 ∧ ResolvesTo (edge 3) 1 .source (imm 0) (addrMax - 1) ∧
      ResolvesTo (edge 3) 2 .destination (pos 0) 0 ∧ addrMax < (edge 3).pc + 4) :=
  ⟨by decide, f3_fails, f3_resolves.1, f3_resolves.2⟩

theorem witness_EqStoresEquality :
    (0 ≤ (1008#64).toInt ∧ (1008#64).toNat % 100 = 8 ∧ Config.default.opcodes.eq = true) ∧
    FirstFailure State.reset (Instr.eq (pos 0) (bad3 0) (pos 0)).params
      ⟨.invalidMode, some 1, 3⟩ ∧
    (ResolvesTo (edge 4) 0 .source (pos 0) 0 ∧ ResolvesTo (edge 4) 1 .source (rel 0) 0 ∧
      ResolvesTo (edge 4) 2 .destination (pos i64Max) addrMax ∧ (edge 4).pc + 4 ≤ addrMax) ∧
    (ResolvesTo (edge 3) 0 .source (pos 0) 0 ∧ ResolvesTo (edge 3) 1 .source (imm 0) (addrMax - 1) ∧
      ResolvesTo (edge 3) 2 .destination (pos 0) 0 ∧ addrMax < (edge 3).pc + 4) :=
  ⟨by decide, f3_fails, f3_resolves.1, f3_resolves.2⟩

/-- The relative base at MAX and an operand 1: under `Fault` and under `Wrap`. -/
theorem witness_ArbAdjustsTheBase :
    (0 ≤ (2009#64).toInt ∧ (2009#64).toNat % 100 = 9 ∧ Config.default.opcodes.arb = true) ∧
    FirstFailure State.reset (Instr.arb (pos (-1))).params ⟨.negativeAddress, some 0, -1⟩ ∧
    (let s := { State.reset with rb := Word.ofInt i64Max };
      ResolvesTo s 0 .source (imm 1) 1 ∧
      ¬ InI64 (s.rb.toInt + (s.operand (imm 1) 1).toInt) ∧ s.config.overflow = .fault ∧
      AluGives wrapping (s.rb.toInt + (s.operand (imm 1) 1).toInt) (Word.ofInt i64Min)) ∧
    (ResolvesTo (edge 2) 0 .source (pos i64Max) addrMax ∧ (edge 2).pc + 2 ≤ addrMax ∧
      AluGives (edge 2).config ((edge 2).rb.toInt + ((edge 2).operand (pos i64Max) addrMax).toInt)
        0#64) ∧
    (ResolvesTo (edge 1) 0 .source (rel 0) 0 ∧ addrMax < (edge 1).pc + 2) :=
  ⟨by decide, f1_fails .source, by decide, by decide, by decide⟩

theorem witness_HltHalts :
    0 ≤ ((boot [100099]).mem.read (boot [100099]).pc).toInt ∧
    ((boot [100099]).mem.read (boot [100099]).pc).toNat % 100 = 99 ∧
    (boot [100099]).config.opcodes.hlt = true := by decide

/-! ### Frames -/

/-- A store that completes, and a destination that does not resolve. -/
theorem witness_StoringInstructionsFrame :
    (exec (.add (imm 1) (imm 2) (pos 5)) State.reset =
        .next (after (exec (.add (imm 1) (imm 2) (pos 5)) State.reset)) ∧
      State.reset.resolve 2 .destination (pos 5) = .ok 5 ∧
      (after (exec (.add (imm 1) (imm 2) (pos 5)) State.reset)).status ≠ .faulted) ∧
    (exec (.eq (imm 1) (imm 2) (pos (-5))) State.reset =
        .next (after (exec (.eq (imm 1) (imm 2) (pos (-5))) State.reset)) ∧
      State.reset.resolve 2 .destination (pos (-5)) = .error ⟨.negativeAddress, some 2, -5⟩) :=
  ⟨⟨rfl, rfl, by decide⟩, rfl, rfl⟩

/-- A suspension, and an input that is consumed. -/
theorem witness_InFrame :
    (exec (.inp (pos 5)) State.reset = .next (after (exec (.inp (pos 5)) State.reset)) ∧
      (after (exec (.inp (pos 5)) State.reset)).status = .waitingForInput) ∧
    (exec (.inp (pos 5)) (boot [] [7]) = .next (after (exec (.inp (pos 5)) (boot [] [7]))) ∧
      (after (exec (.inp (pos 5)) (boot [] [7]))).status ≠ .faulted ∧
      (boot [] [7]).resolve 0 .destination (pos 5) = .ok 5) :=
  ⟨⟨rfl, by decide⟩, rfl, by decide, rfl⟩

theorem witness_NonStoringInstructionsFrame :
    exec (.out (imm 5)) State.reset = .next (after (exec (.out (imm 5)) State.reset)) ∧
    (after (exec (.out (imm 5)) State.reset)).status ≠ .faulted ∧
    (Instr.out (imm 5)).opcode ≠ .arb ∧
    exec (.arb (imm 5)) State.reset = .next (after (exec (.arb (imm 5)) State.reset)) ∧
    (Instr.arb (imm 5)).opcode ≠ .out := ⟨rfl, by decide, by decide, rfl, by decide⟩

/-! ### Steps, statuses and faults -/

theorem witness_StepRunsTheDecodedInstruction :
    (boot [1, 9, 10, 3]).status.live = true ∧ (boot [1, 9, 10, 3]).pc ≤ addrMax ∧
    decode (boot [1, 9, 10, 3]).config
      [(boot [1, 9, 10, 3]).mem.read 0, (boot [1, 9, 10, 3]).mem.read 1,
        (boot [1, 9, 10, 3]).mem.read 2, (boot [1, 9, 10, 3]).mem.read 3] =
      .ok (.add (pos 9) (pos 10) (pos 3), []) := ⟨rfl, by decide, rfl⟩

/-- A Halted engine, a Faulted one, and a command that answers. -/
theorem witness_StoppedEngineIsInert :
    (go (boot [99])).status = .halted ∧ (go (boot [])).status = .faulted ∧
    command 0 (.pushInput 7#64) (go (boot [99])) =
      .completed .done { go (boot [99]) with iq := [7#64] } ∧
    ∀ image, Command.pushInput 7#64 ≠ .construct image :=
  ⟨by decide, by decide, rfl, fun _ h => by cases h⟩

theorem witness_OnlyEmptyInputSuspends :
    (boot [3, 5]).status.live = true ∧ step (boot [3, 5]) = .next (go (boot [3, 5])) ∧
    (go (boot [3, 5])).status = .waitingForInput := ⟨rfl, rfl, by decide⟩

theorem witness_OnlyHltHalts :
    (boot [199]).status.live = true ∧ step (boot [199]) = .next (go (boot [199])) ∧
    (go (boot [199])).status = .halted := ⟨rfl, rfl, by decide⟩

theorem witness_FaultsArePrecise :
    overflowing.status.live = true ∧ step overflowing = .next (go overflowing) ∧
    (go overflowing).status = .faulted := ⟨rfl, rfl, by decide⟩

/-- A step that records each of the five codes. -/
theorem witness_FaultRecordsFollowTheTable :
    (step (boot [204, -1]) = .next (go (boot [204, -1])) ∧
      (go (boot [204, -1])).fault = some ⟨.negativeAddress, 0, Word.ofInt 204, some 0, -1⟩) ∧
    (step (boot [301]) = .next (go (boot [301])) ∧
      (go (boot [301])).fault = some ⟨.invalidMode, 0, Word.ofInt 301, some 0, 3⟩) ∧
    (step (boot [98]) = .next (go (boot [98])) ∧
      (go (boot [98])).fault = some ⟨.unknownOpcode, 0, Word.ofInt 98, none, 98⟩) ∧
    (step overflowing = .next (go overflowing) ∧ (go overflowing).fault =
      some ⟨.arithmeticOverflow, 0, Word.ofInt 1101, none, 2 ^ 63⟩) ∧
    (let s := { boot [204, i64Max] with rb := 1#64 };
      step s = .next (go s) ∧
      (go s).fault = some ⟨.addressOverflow, 0, Word.ofInt 204, some 0, 2 ^ 63⟩ ∧
      s.status.live = true ∧ (go s).status = .faulted) :=
  ⟨⟨rfl, by decide⟩, ⟨rfl, by decide⟩, ⟨rfl, by decide⟩, ⟨rfl, by decide⟩,
    rfl, by decide, rfl, by decide⟩

/-! ### Whole-machine rules -/

/-- The invariant at a running state with the pc at the last address, and at a faulted one. -/
theorem witness_StepKeepsTheInvariant :
    EngineInvariant (edge 0) ∧ step (edge 0) = .next (go (edge 0)) ∧
    EngineInvariant (go (boot [])) ∧ (go (boot [])).status = .faulted :=
  ⟨by decide, rfl, by decide, by decide⟩

theorem witness_CommandsKeepTheInvariant :
    EngineInvariant (boot [3, 5, 99]) ∧
    command 3 (.resume (W [7])) (boot [3, 5, 99]) = .completed (.status .halted none)
      { boot [3, 5, 99, 0, 0, 7] with pc := 2, status := .halted } := ⟨by decide, by decide⟩

theorem witness_StepAlwaysAnswers : EngineInvariant (edge 0) ∧ EngineInvariant overflowing := by
  decide

/-- The word at 5 changes in the first step of `[1101,5,7,5,99]` (L1.3). -/
theorem witness_AtMostOneWordChanges :
    step (boot [1101, 5, 7, 5, 99]) = .next (go (boot [1101, 5, 7, 5, 99])) ∧
    (go (boot [1101, 5, 7, 5, 99])).mem.read 5 ≠ (boot [1101, 5, 7, 5, 99]).mem.read 5 :=
  ⟨rfl, by decide⟩

/-- A completed step, a taken jump, and a fault. -/
theorem witness_PcMovesOnlyOnCompletion :
    (step (boot [1105, 1, 4]) = .next (go (boot [1105, 1, 4])) ∧
      (go (boot [1105, 1, 4])).status = .running) ∧
    (step (boot [1, 0, 0, 0]) = .next (go (boot [1, 0, 0, 0])) ∧
      (go (boot [1, 0, 0, 0])).status = .running) ∧
    step (boot [98]) = .next (go (boot [98])) ∧ (go (boot [98])).status ≠ .running :=
  ⟨⟨rfl, by decide⟩, ⟨rfl, by decide⟩, rfl, by decide⟩

theorem witness_OnlyArbWritesTheBase :
    step (boot [109, 5]) = .next (go (boot [109, 5])) ∧
    (go (boot [109, 5])).rb ≠ (boot [109, 5]).rb := ⟨rfl, by decide⟩

theorem witness_InputIsTakenFromTheFront :
    step (boot [3, 5] [1, 2]) = .next (go (boot [3, 5] [1, 2])) ∧
    (go (boot [3, 5] [1, 2])).iq = W [2] := ⟨rfl, by decide⟩

theorem witness_OutputIsAppendOnly :
    step (boot [104, 7]) = .next (go (boot [104, 7])) ∧ (go (boot [104, 7])).oq = W [7] :=
  ⟨rfl, by decide⟩

theorem witness_ParametersAreFixed :
    step (boot [104, 7]) = .next (go (boot [104, 7])) ∧
    command 0 (.construct ⟨W [99], by decide⟩) { boot [104, 7] with config := wrapping } =
      .completed .done (State.construct wrapping ⟨W [99], by decide⟩) := ⟨rfl, rfl⟩

theorem witness_DrainingDoesNotAffectSteps :
    step { boot [104, 7] with oq := W [1, 2] } = .next (go { boot [104, 7] with oq := W [1, 2] }) := rfl

/-! ### Host interface -/

/-- The addresses inside an image, and the first one after it. -/
theorem witness_ConstructionLoadsTheImage :
    let image : Image := ⟨W [1, 0, 99], by decide⟩
    2 < image.val.length ∧ image.val.length ≤ 3 := by decide

theorem witness_HostMemoryPort :
    0 ≤ (Word.ofInt 0).toInt ∧ 0 ≤ (Word.ofInt i64Max).toInt ∧ (Word.ofInt (-1)).toInt < 0 := by
  decide

/-- A live status and an inert one. -/
theorem witness_RunIsThePostTestLoop :
    (boot [99]).status.live = true ∧ (go (boot [99])).status.live = false := by decide

theorem witness_MoreStepsKeepTheAnswer :
    runFor 2 (boot [104, 7, 99]) = .completed (.status .halted none)
      { boot [104, 7, 99] with pc := 2, oq := W [7], status := .halted } := by decide

/-- A run that halts, one that waits and one that faults. -/
theorem witness_RunEndsInOneOfFourWays :
    (EngineInvariant (boot [99]) ∧ RunEnds (boot [99]) (go (boot [99]))) ∧
    (EngineInvariant (boot [3, 5]) ∧ RunEnds (boot [3, 5]) (go (boot [3, 5]))) ∧
    (EngineInvariant (boot []) ∧ RunEnds (boot []) (go (boot []))) :=
  ⟨⟨by decide, 1, rfl⟩, ⟨by decide, 1, rfl⟩, by decide, 1, rfl⟩

/-- `[1105,1,0]` (L2.5). -/
theorem witness_SelfLoopNeverEnds :
    (boot [1105, 1, 0]).status = .running ∧ step (boot [1105, 1, 0]) = .next (boot [1105, 1, 0]) ∧
    (boot [1105, 1, 0]).pc ≤ addrMax ∧ (boot [1105, 1, 0]).fetch = .ok (.jnz (imm 1) (imm 0)) ∧
    ResolvesTo (boot [1105, 1, 0]) 0 .source (imm 1) 1 ∧
    ResolvesTo (boot [1105, 1, 0]) 1 .source (imm 0) 2 ∧
    ((boot [1105, 1, 0]).operand (imm 1) 1).toInt ≠ 0 ∧
    ((boot [1105, 1, 0]).operand (imm 0) 2).toInt = ((boot [1105, 1, 0]).pc : Int) :=
  ⟨rfl, rfl, by decide, rfl, by decide, by decide, by decide, by decide⟩

theorem witness_ResumeIsPushThenRun :
    (go (boot [99])).status = .halted ∧ (go (boot [])).status = .faulted := by decide

/-- `[3,3,99,0]` of L2.4: it waits, and after the input -7 it halts. -/
theorem witness_EarlyInputEqualsInputOnDemand :
    let s := boot [3, 3, 99, 0]
    let u := { s with status := .waitingForInput }
    let t := { boot [3, 3, 99, -7] with pc := 2, status := .halted }
    RunEnds s u ∧ u.status = .waitingForInput ∧
    RunEnds { u with iq := u.iq ++ (Word.ofInt (-7) :: []) } t :=
  ⟨⟨1, rfl⟩, rfl, 2, rfl⟩

/-- Two engines, and a command to the first. -/
theorem witness_CommandTouchesOneEngine :
    let es : Engines := [some (boot [99]), some (boot [3, 5])]
    es.issue 1 0 .run = some (.status .halted none, [some (go (boot [99])), some (boot [3, 5])]) ∧
      (1 : Nat) ≠ 0 := ⟨by decide, by decide⟩

/-- The last handle given out, and another one. -/
theorem witness_DiscardTouchesOneEngine :
    let es : Engines := [some (boot [99]), some (boot [3, 5])]
    1 < es.length ∧ (0 : Nat) ≠ 1 := by decide

theorem witness_ConstructTouchesNoOtherEngine :
    Engines.engine [none, some (boot [99])] 1 = some (boot [99]) := by decide

/-- A Faulted engine, a WaitingForInput one and a Halted one are discarded, and the engine beside each is as it was (46_host_interface.md R105). -/
theorem test_discard_at_any_status :
    Engines.discard [some (go (boot [])), some (boot [99])] 0 = [none, some (boot [99])] ∧
    Engines.discard [some (boot [99]), some (go (boot [3, 5]))] 1 = [some (boot [99]), none] ∧
    Engines.discard [some (go (boot [99])), some (boot [99])] 0 = [none, some (boot [99])] := by decide

end Sys2Proof.Tests
end

section
/-! The decoder's parts, said once: the opcode map, the mode digits, the three formats, and what a decode or a fetch answers (30_encoding.md R46 to R58). -/

namespace Sys2Proof

/-! The opcode (R47, R55) -/

theorem Opcode.ofNumber_eq_some {n : Nat} {op : Opcode} :
    Opcode.ofNumber n = some op ↔ n = op.number := by
  constructor
  · intro h
    unfold Opcode.ofNumber at h
    split at h <;> cases h <;> rfl
  · rintro rfl
    cases op <;> rfl

/-- A word has an opcode exactly where it is not negative and its low two digits are an enabled number (R47, R48, R55). -/
theorem decodeOpcode_eq_some {cfg : Config} {w : Word} {op : Opcode} :
    decodeOpcode cfg w = some op ↔
      0 ≤ w.toInt ∧ w.toNat % 100 = op.number ∧ cfg.opcodeEnabled op = true := by
  rw [← Opcode.ofNumber_eq_some, decodeOpcode]
  by_cases hw : w.toInt < 0
  · simp [hw]
  · cases Opcode.ofNumber (w.toNat % 100) with
    | none => simp
    | some op' => simp only [if_neg hw, Option.ite_none_right_eq_some, Option.some.injEq]; grind

/-! The mode digits (R47, R53) -/

theorem modeWeight_eq_pow (i : ParamIndex) : modeWeight i = 10 ^ (i.val + 2) := by
  revert i; decide

@[simp] theorem Mode.digit_ofDigit {d : Nat} (h : d < 10) : (Mode.ofDigit d).digit = d := by
  revert d; decide

/-- The mode of parameter `i` has the digit of weight `10^(i+2)` (R47). -/
theorem modeOf_digit (w : Word) (i : ParamIndex) :
    (modeOf w i).digit = w.toNat / 10 ^ (i.val + 2) % 10 := by
  rw [modeOf, modeDigit, modeWeight_eq_pow, Mode.digit_ofDigit (Nat.mod_lt _ (by decide))]

/-- The modes of an opcode's parameters depend on the digits below weight `10^(n+2)` only (R49). -/
theorem modeOf_congr {w w' : Word} {n : Nat} (h : w.toNat ≡ w'.toNat [MOD 10 ^ (n + 2)])
    {i : ParamIndex} (hi : i.val < n) : modeOf w i = modeOf w' i := by
  have hdvd : 10 ^ (i.val + 2) * 10 ∣ 10 ^ (n + 2) := by
    rw [← pow_succ]
    exact pow_dvd_pow 10 (by omega)
  have hmod : w.toNat % (10 ^ (i.val + 2) * 10) = w'.toNat % (10 ^ (i.val + 2) * 10) :=
    h.of_dvd hdvd
  simp only [modeOf, modeDigit, modeWeight_eq_pow, ← Nat.mod_mul_right_div_self, hmod]

/-! The formats (R50) -/

theorem decodeF1_eq_ok {mk : Param → Instr} {w : Word} {ws rest : List Word} {i : Instr} :
    decodeF1 mk w ws = .ok (i, rest) ↔ ∃ p0, ws = p0 :: rest ∧ i = mk ⟨modeOf w 0, p0⟩ := by
  unfold decodeF1
  split <;> simp [eq_comm, and_comm]

theorem decodeF2_eq_ok {mk : Param → Param → Instr} {w : Word} {ws rest : List Word} {i : Instr} :
    decodeF2 mk w ws = .ok (i, rest) ↔
      ∃ p0 p1, ws = p0 :: p1 :: rest ∧ i = mk ⟨modeOf w 0, p0⟩ ⟨modeOf w 1, p1⟩ := by
  unfold decodeF2
  split <;> simp [eq_comm, and_comm]

theorem decodeF3_eq_ok {mk : Param → Param → Param → Instr} {w : Word} {ws rest : List Word}
    {i : Instr} :
    decodeF3 mk w ws = .ok (i, rest) ↔
      ∃ p0 p1 p2, ws = p0 :: p1 :: p2 :: rest ∧
        i = mk ⟨modeOf w 0, p0⟩ ⟨modeOf w 1, p1⟩ ⟨modeOf w 2, p2⟩ := by
  unfold decodeF3
  split <;> simp [eq_comm, and_comm]

/-- The parameter words decode to an instruction of that opcode, each parameter with its mode from the instruction word (R47, R52). -/
theorem decodeParams_ok {op : Opcode} {w : Word} {ws rest : List Word} {i : Instr}
    (h : decodeParams op w ws = .ok (i, rest)) :
    i.opcode = op ∧ ∀ q ∈ i.params, q.2.2.mode = modeOf w q.1 := by
  cases op with
  | add | mul | lt | eq =>
    obtain ⟨p0, p1, p2, -, rfl⟩ := decodeF3_eq_ok.mp h
    simp [Instr.opcode, Instr.params]
  | jnz | jz =>
    obtain ⟨p0, p1, -, rfl⟩ := decodeF2_eq_ok.mp h
    simp [Instr.opcode, Instr.params]
  | inp | out | arb =>
    obtain ⟨p0, -, rfl⟩ := decodeF1_eq_ok.mp h
    simp [Instr.opcode, Instr.params]
  | hlt =>
    cases h
    simp [Instr.opcode, Instr.params]

/-- Decoding the parameters reads nothing of the instruction word but the modes of the parameters the opcode has (R49). -/
theorem decodeParams_congr {op : Opcode} {w w' : Word}
    (h : ∀ i : ParamIndex, i.val < op.nparams → modeOf w i = modeOf w' i) (ws : List Word) :
    decodeParams op w ws = decodeParams op w' ws := by
  cases op with
  | add | mul | lt | eq =>
    simp only [decodeParams, decodeF3, h 0 (by decide), h 1 (by decide), h 2 (by decide)]
  | jnz | jz => simp only [decodeParams, decodeF2, h 0 (by decide), h 1 (by decide)]
  | inp | out | arb => simp only [decodeParams, decodeF1, h 0 (by decide)]
  | hlt => rfl

/-- Three parameter words are enough for every opcode (R46). -/
theorem decodeParams_three_words (op : Opcode) (w p0 p1 p2 : Word) :
    ∃ i rest, decodeParams op w [p0, p1, p2] = .ok (i, rest) := by
  cases op <;> exact ⟨_, _, rfl⟩

/-! The decoder (R46, R64) -/

theorem decode_cons_of_some {cfg : Config} {w : Word} {op : Opcode}
    (h : decodeOpcode cfg w = some op) (ws : List Word) :
    decode cfg (w :: ws) = decodeParams op w ws := by
  simp [decode, h]

theorem decode_cons_of_none {cfg : Config} {w : Word} (h : decodeOpcode cfg w = none)
    (ws : List Word) : decode cfg (w :: ws) = .error (.unknownOpcode w) := by
  simp [decode, h]

theorem decode_cons_eq_ok {cfg : Config} {w : Word} {ws rest : List Word} {i : Instr} :
    decode cfg (w :: ws) = .ok (i, rest) ↔
      ∃ op, decodeOpcode cfg w = some op ∧ decodeParams op w ws = .ok (i, rest) := by
  cases h : decodeOpcode cfg w with
  | none => simp [decode_cons_of_none h]
  | some op => simp [decode_cons_of_some h]

namespace Machine

/-! The fetch (R55, 40_execution_cycle.md R64) -/

/-- The opcode map as the statements write it, over the opcodes (R55). -/
theorem selectsOpcode_iff {cfg : Config} {n : Nat} :
    SelectsOpcode cfg.opcodes n ↔ ∃ op : Opcode, n = op.number ∧ cfg.opcodeEnabled op = true := by
  constructor
  · rintro (h | h | h | h | h | h | h | h | h | h)
    · exact ⟨.add, h⟩
    · exact ⟨.mul, h⟩
    · exact ⟨.inp, h⟩
    · exact ⟨.out, h⟩
    · exact ⟨.jnz, h⟩
    · exact ⟨.jz, h⟩
    · exact ⟨.lt, h⟩
    · exact ⟨.eq, h⟩
    · exact ⟨.arb, h⟩
    · exact ⟨.hlt, h⟩
  · rintro ⟨op, rfl, h⟩
    cases op <;> simpa [SelectsOpcode, Opcode.number, Config.opcodeEnabled] using h

/-- A word that is not negative has an opcode exactly where the opcode map selects one (R55). -/
theorem exists_decodeOpcode_iff {cfg : Config} {w : Word} (h : 0 ≤ w.toInt) :
    (∃ op, decodeOpcode cfg w = some op) ↔ SelectsOpcode cfg.opcodes (w.toNat % 100) := by
  simp only [decodeOpcode_eq_some, selectsOpcode_iff, h, true_and]

/-- A fetch finds an instruction wherever the word at the pc has an opcode: four words are never too few (40_execution_cycle.md R63). -/
theorem State.fetch_of_some {s : State} {op : Opcode}
    (h : decodeOpcode s.config (s.mem.read s.pc) = some op) : ∃ i, s.fetch = .ok i := by
  obtain ⟨i, rest, hi⟩ := decodeParams_three_words op (s.mem.read s.pc)
    (s.mem.read (s.pc + 1)) (s.mem.read (s.pc + 2)) (s.mem.read (s.pc + 3))
  exact ⟨i, by rw [State.fetch, State.fetchWords, decode_cons_of_some h, hi]⟩

theorem State.fetch_of_none {s : State} (h : decodeOpcode s.config (s.mem.read s.pc) = none) :
    s.fetch = .error (.unknownOpcode (s.mem.read s.pc)) := by
  rw [State.fetch, State.fetchWords, decode_cons_of_none h]

theorem State.exists_fetch_iff {s : State} :
    (∃ i, s.fetch = .ok i) ↔ ∃ op, decodeOpcode s.config (s.mem.read s.pc) = some op := by
  constructor
  · rintro ⟨i, hi⟩
    refine Option.ne_none_iff_exists'.mp fun hn => ?_
    simp [State.fetch_of_none hn] at hi
  · rintro ⟨op, h⟩
    exact State.fetch_of_some h

/-- A step of a live engine at a word without an opcode raises `UnknownOpcode` (R55, 40_execution_cycle.md R64). -/
theorem step_of_no_opcode {s : State} (hl : s.status.live = true) (hp : s.pc ≤ addrMax)
    (h : decodeOpcode s.config (s.mem.read s.pc) = none) :
    step s = .next (s.raise ⟨.unknownOpcode, none, (s.mem.read s.pc).toInt⟩) := by
  rw [step_of_fetch_error hl hp (State.fetch_of_none h), State.fetchFailed]

end Machine

end Sys2Proof
end

section
/-! The opcode map and the digits of an instruction word (30_encoding.md R47, R49, R55). -/

namespace Sys2Proof.Machine

/-- Settles O4: a fetch answers exactly where the word has an opcode, which for a word that is not negative is the opcode map. -/
theorem opcodeMapSelectsInstruction : Obligations.OpcodeMapSelectsInstruction := by
  intro s hl hp hw
  have hmap := exists_decodeOpcode_iff (cfg := s.config) hw
  refine ⟨State.exists_fetch_iff.trans hmap, fun hsel => step_of_no_opcode hl hp ?_⟩
  rw [← hmap] at hsel
  simpa [Option.eq_none_iff_forall_ne_some] using hsel

/-- Settles O5: words that agree below weight `10^(n+2)` have the same opcode and the same `n` modes, and the decoder reads no more of them. -/
theorem unusedDigitsAreIgnored : Obligations.UnusedDigitsAreIgnored := by
  intro cfg op w w' ws hw hw' hop hmod hen
  have hdvd : 100 ∣ 10 ^ (op.nparams + 2) := pow_dvd_pow 10 (Nat.le_add_left 2 op.nparams)
  have hlow : w.toNat % 100 = w'.toNat % 100 := Nat.ModEq.of_dvd hdvd hmod
  rw [decode_cons_of_some (decodeOpcode_eq_some.mpr ⟨hw, hop, hen⟩),
    decode_cons_of_some (decodeOpcode_eq_some.mpr ⟨hw', hlow ▸ hop, hen⟩)]
  exact decodeParams_congr (fun _ hi => modeOf_congr hmod hi) ws

/-- Settles O6: a decoded instruction has the opcode of its word, and each parameter the mode of its digit. -/
theorem decodedFieldsAreDigits : Obligations.DecodedFieldsAreDigits := by
  intro cfg w ws rest i h
  obtain ⟨op, hop, hparams⟩ := decode_cons_eq_ok.mp h
  obtain ⟨-, hnum, -⟩ := decodeOpcode_eq_some.mp hop
  obtain ⟨rfl, hmodes⟩ := decodeParams_ok hparams
  refine ⟨hnum.symm, fun k role p hp => ?_⟩
  rw [hmodes (k, role, p) hp, modeOf_digit]

end Sys2Proof.Machine
end

section
/-! The resolver, the ALU and the fall-through in each of their cases, and with them what an instruction of format F3 does (40_execution_cycle.md R65 to R74, 41_arithmetic.md R82). -/

namespace Sys2Proof.Machine

/-! The fetch of an instruction whose opcode is enabled (30_encoding.md R47, R55) -/

/-- A fetch is what the opcode's parameters decode to, wherever the word at the pc has that opcode (R55, R64). -/
theorem fetchedBy_of_decodeParams (op : Opcode) {enabled : OpcodeSet → Bool} {mk : State → Instr}
    (hen : ∀ cfg : Config, cfg.opcodeEnabled op = enabled cfg.opcodes)
    (hmk : ∀ s : State, ∃ rest, decodeParams op (s.mem.read s.pc)
      [s.mem.read (s.pc + 1), s.mem.read (s.pc + 2), s.mem.read (s.pc + 3)] = .ok (mk s, rest)) :
    FetchedBy op.number enabled mk := by
  intro s hw hnum hs
  obtain ⟨rest, hrest⟩ := hmk s
  have hop : decodeOpcode s.config (s.mem.read s.pc) = some op :=
    decodeOpcode_eq_some.mpr ⟨hw, hnum, (hen s.config).trans hs⟩
  rw [State.fetch, State.fetchWords, decode_cons_of_some hop, hrest]

/-- An opcode of format F3 is fetched with its three parameters: the weights `10^(k+2)` of `State.paramAt` are the decoder's (R47, R50). -/
theorem fetchedBy_of_decodeF3 (op : Opcode) {enabled : OpcodeSet → Bool}
    {mk : Param → Param → Param → Instr}
    (hen : ∀ cfg : Config, cfg.opcodeEnabled op = enabled cfg.opcodes)
    (hmk : ∀ w ws, decodeParams op w ws = decodeF3 mk w ws) :
    FetchedBy op.number enabled fun s => mk (s.paramAt 0) (s.paramAt 1) (s.paramAt 2) := by
  refine fetchedBy_of_decodeParams op hen fun s => ⟨[], ?_⟩
  rw [hmk]
  rfl

/-! The resolver (40_execution_cycle.md R65 to R71) -/

theorem Config.modeLegal_iff {cfg : Config} {role : Role} {m : Mode} :
    cfg.modeLegal role m = true ↔
      cfg.modeEnabled m = true ∧ cfg.immDestForbidden role m = false := by
  simp [Config.modeLegal]

/-- With a legal mode the resolver checks the slot, then the address (R67, R71). -/
theorem State.resolve_of_modeLegal {s : State} {i : ParamIndex} {role : Role} {p : Param}
    (h : s.config.modeLegal role p.mode = true) :
    s.resolve i role p =
      if addrMax < s.slot i then .error ⟨.addressOverflow, some i, (s.slot i : Int)⟩
      else checkAddress (some i) (s.effectiveAddress i p) := by
  obtain ⟨hen, himm⟩ := Config.modeLegal_iff.mp h
  simp [State.resolve, hen, himm]

/-- A parameter that passes every check resolves to its address. -/
theorem State.resolve_of_resolvesTo {s : State} {i : ParamIndex} {role : Role} {p : Param} {a : Nat}
    (h : ResolvesTo s i role p a) : s.resolve i role p = .ok a := by
  obtain ⟨hmode, hslot, haddr, hle⟩ := h
  rw [State.resolve_of_modeLegal hmode, if_neg (by omega)]
  exact checkAddress_eq_ok.mpr ⟨haddr, hle⟩

/-- A parameter that fails a check raises the fault of the first it fails (R72). -/
theorem State.resolve_of_failsWith {s : State} {i : ParamIndex} {role : Role} {p : Param} {e : Raise}
    (h : FailsWith s i role p e) : s.resolve i role p = .error e := by
  rcases h with ⟨hmode, rfl⟩ | ⟨hmode, rfl, himm, hpol, rfl⟩ | ⟨hmode, hslot, rfl⟩ |
    ⟨hmode, hslot, haddr, rfl⟩ | ⟨hmode, hslot, haddr, rfl⟩
  · simp [State.resolve, hmode]
  · have hforb : s.config.immDestForbidden .destination p.mode = true := by
      simp [Config.immDestForbidden, himm, hpol]
    simp [State.resolve, hmode, hforb]
  · rw [State.resolve_of_modeLegal hmode, if_pos hslot]
  · rw [State.resolve_of_modeLegal hmode, if_neg (by omega), checkAddress, if_pos haddr]
  · rw [State.resolve_of_modeLegal hmode, if_neg (by omega), checkAddress, if_neg (by omega),
      if_pos haddr]

/-- A chain of checks that begins with a parameter answers the first failure of the parameters, if what follows does so for the rest of them (R72). -/
theorem State.resolve_bind_of_firstFailure {s : State} {i : ParamIndex} {role : Role} {p : Param}
    {rest : List (ParamIndex × Role × Param)} {e : Raise} {α : Type} {k : Nat → Except Raise α}
    (h : FirstFailure s ((i, role, p) :: rest) e)
    (hk : ∀ a, FirstFailure s rest e → k a = .error e) :
    (s.resolve i role p >>= k) = .error e := by
  rcases h with h | ⟨⟨a, ha⟩, h⟩
  · rw [State.resolve_of_failsWith h, except_bind_error]
  · rw [State.resolve_of_resolvesTo ha, except_bind_ok, hk a h]

/-! The ALU (41_arithmetic.md R82) and the fall-through (40_execution_cycle.md R74) -/

theorem alu_of_overflow_fault {cfg : Config} {v : Int} (h : ¬ InI64 v) (hp : cfg.overflow = .fault) :
    alu cfg v = .error ⟨.arithmeticOverflow, none, v⟩ := by
  simp only [alu, if_neg h, hp]

/-- A word is the word of its value. -/
theorem Word.ofInt_eq_of_toInt_eq {w : Word} {v : Int} (h : w.toInt = v) : Word.ofInt v = w :=
  h ▸ BitVec.ofInt_toInt

/-- The ALU answers the word a statement describes by its value. -/
theorem alu_of_aluGives {cfg : Config} {v : Int} {r : Word} (h : AluGives cfg v r) :
    alu cfg v = .ok r := by
  rcases h with ⟨hin, hr⟩ | ⟨hin, hp, hr⟩
  · rw [alu, if_pos hin, Word.ofInt_eq_of_toInt_eq hr]
  · simp only [alu, if_neg hin, hp, Word.ofInt_eq_of_toInt_eq hr]

theorem State.fallthrough_of_gt {s : State} {n : Nat} (h : addrMax < s.pc + 1 + n) :
    s.fallthrough n = .error ⟨.addressOverflow, none, ((s.pc + 1 + n : Nat) : Int)⟩ := by
  simp only [State.fallthrough, if_pos h]

/-! Instructions of format F3 (40_execution_cycle.md R72 to R74) -/

section
variable {s : State} {f : Word → Word → Except Raise Word} {a b dst : Param}

/-- The first parameter that fails decides the fault, whatever is computed. -/
theorem State.binaryStore_of_firstFailure {e : Raise}
    (h : FirstFailure s [(0, .source, a), (1, .source, b), (2, .destination, dst)] e) :
    s.binaryStore f a b dst = .next (s.raise e) := by
  refine congrArg s.conclude (a₂ := .error e) ?_
  exact resolve_bind_of_firstFailure h fun _ h => resolve_bind_of_firstFailure h fun _ h =>
    resolve_bind_of_firstFailure h fun _ h => h.elim

variable {x y d : Nat} (hx : ResolvesTo s 0 .source a x) (hy : ResolvesTo s 1 .source b y)
  (hd : ResolvesTo s 2 .destination dst d)
include hx hy hd

/-- Once the parameters resolve, what remains is the computation, the fall-through and the commit. -/
theorem State.binaryStore_of_resolvesTo :
    s.binaryStore f a b dst = s.conclude (do
      let r ← f (s.operand a x) (s.operand b y)
      let next ← s.fallthrough 3
      pure ((s.store d r).retire next)) := by
  simp only [State.binaryStore, State.resolve_of_resolvesTo hx, State.resolve_of_resolvesTo hy,
    State.resolve_of_resolvesTo hd, except_bind_ok]

theorem State.binaryStore_of_error {e : Raise}
    (hf : f (s.operand a x) (s.operand b y) = .error e) :
    s.binaryStore f a b dst = .next (s.raise e) := by
  rw [State.binaryStore_of_resolvesTo hx hy hd, hf, except_bind_error, State.conclude_error]

theorem State.binaryStore_of_ok {r : Word} (hf : f (s.operand a x) (s.operand b y) = .ok r)
    (hpc : s.pc + 4 ≤ addrMax) :
    s.binaryStore f a b dst =
      .next { s with mem := s.mem.write d r, pc := s.pc + 4, status := .running } := by
  have hnext : s.fallthrough 3 = .ok (s.pc + 4) := State.fallthrough_eq_ok.mpr ⟨rfl, hpc⟩
  rw [State.binaryStore_of_resolvesTo hx hy hd, hf, except_bind_ok, hnext, except_bind_ok]
  rfl

theorem State.binaryStore_of_fallthrough_overflow {r : Word}
    (hf : f (s.operand a x) (s.operand b y) = .ok r) (hpc : addrMax < s.pc + 4) :
    s.binaryStore f a b dst =
      .next (s.raise ⟨.addressOverflow, none, ((s.pc + 4 : Nat) : Int)⟩) := by
  rw [State.binaryStore_of_resolvesTo hx hy hd, hf, except_bind_ok, State.fallthrough_of_gt hpc,
    except_bind_error, State.conclude_error]

/-- What an F3 instruction does whose result is the ALU's of an exact value `v`: ADD and MUL, which differ in `v` alone. -/
theorem State.binaryStore_of_alu {v : Int}
    (hf : f (s.operand a x) (s.operand b y) = alu s.config v) :
    (¬ InI64 v → s.config.overflow = .fault →
      s.binaryStore f a b dst = .next (s.raise ⟨.arithmeticOverflow, none, v⟩)) ∧
    ∀ r, AluGives s.config v r →
      (s.pc + 4 ≤ addrMax → s.binaryStore f a b dst =
        .next { s with mem := s.mem.write d r, pc := s.pc + 4, status := .running }) ∧
      (addrMax < s.pc + 4 → s.binaryStore f a b dst =
        .next (s.raise ⟨.addressOverflow, none, ((s.pc + 4 : Nat) : Int)⟩)) := by
  refine ⟨fun hv hp => ?_, fun r hr => ?_⟩
  · exact State.binaryStore_of_error hx hy hd (hf.trans (alu_of_overflow_fault hv hp))
  · have hfr : f (s.operand a x) (s.operand b y) = .ok r := hf.trans (alu_of_aluGives hr)
    exact ⟨State.binaryStore_of_ok hx hy hd hfr,
      State.binaryStore_of_fallthrough_overflow hx hy hd hfr⟩

end

end Sys2Proof.Machine
end

section
/-! ADD and MUL (41_arithmetic.md R80, R81). -/

namespace Sys2Proof.Machine

/-- Settles O18: ADD is the F3 instruction whose result is the ALU's of the exact sum. -/
theorem addStoresTheSum : Obligations.AddStoresTheSum := by
  refine ⟨fetchedBy_of_decodeF3 .add (fun _ => rfl) (fun _ _ => rfl), fun a b dst s => ?_⟩
  rw [exec_add]
  exact ⟨fun _ he => State.binaryStore_of_firstFailure he,
    fun _ _ _ hx hy hd => State.binaryStore_of_alu hx hy hd rfl⟩

/-- Settles O19: MUL is the F3 instruction whose result is the ALU's of the exact product. -/
theorem mulStoresTheProduct : Obligations.MulStoresTheProduct := by
  refine ⟨fetchedBy_of_decodeF3 .mul (fun _ => rfl) (fun _ _ => rfl), fun a b dst s => ?_⟩
  rw [exec_mul]
  exact ⟨fun _ he => State.binaryStore_of_firstFailure he,
    fun _ _ _ hx hy hd => State.binaryStore_of_alu hx hy hd rfl⟩

end Sys2Proof.Machine
end

section
/-! JNZ and JZ: what a jump on a condition does in each of its cases (43_branch.md R85 to R87). -/

namespace Sys2Proof.Machine

/-- An opcode of format F2 is fetched with its two parameters, whatever the word after them is (30_encoding.md R47, R50). -/
theorem fetchedBy_of_decodeF2 (op : Opcode) {enabled : OpcodeSet → Bool}
    {mk : Param → Param → Instr}
    (hen : ∀ cfg : Config, cfg.opcodeEnabled op = enabled cfg.opcodes)
    (hmk : ∀ w ws, decodeParams op w ws = decodeF2 mk w ws) :
    FetchedBy op.number enabled fun s => mk (s.paramAt 0) (s.paramAt 1) := by
  refine fetchedBy_of_decodeParams op hen fun s => ⟨[s.mem.read (s.pc + 3)], ?_⟩
  rw [hmk]
  rfl

/-! The conditions (R85, R86) -/

@[simp] theorem isNonzero_eq_true {w : Word} : isNonzero w = true ↔ w.toInt ≠ 0 :=
  decide_eq_true_iff

@[simp] theorem isNonzero_eq_false {w : Word} : isNonzero w = false ↔ w.toInt = 0 :=
  decide_eq_false_iff_not.trans not_not

@[simp] theorem isZero_eq_true {w : Word} : isZero w = true ↔ w.toInt = 0 :=
  decide_eq_true_iff

@[simp] theorem isZero_eq_false {w : Word} : isZero w = false ↔ w.toInt ≠ 0 :=
  decide_eq_false_iff_not

/-! The target (R87) -/

theorem jumpTarget_of_nonneg {w : Word} (h : 0 ≤ w.toInt) : jumpTarget w = .ok w.toInt.toNat :=
  jumpTarget_eq_ok.mpr (Int.toNat_of_nonneg h).symm

theorem jumpTarget_of_neg {w : Word} (h : w.toInt < 0) :
    jumpTarget w = .error ⟨.negativeAddress, some 1, w.toInt⟩ := by
  rw [jumpTarget, if_pos h]

/-! A jump on a condition -/

section
variable {s : State} {cond : Word → Bool} {a target : Param}

/-- The first parameter that fails decides the fault, whatever the condition is. -/
theorem State.jumpIf_of_firstFailure {e : Raise}
    (h : FirstFailure s [(0, .source, a), (1, .source, target)] e) :
    s.jumpIf cond a target = .next (s.raise e) := by
  refine congrArg s.conclude (a₂ := .error e) ?_
  exact resolve_bind_of_firstFailure h fun _ h => resolve_bind_of_firstFailure h fun _ h => h.elim

variable {x y : Nat} (hx : ResolvesTo s 0 .source a x) (hy : ResolvesTo s 1 .source target y)
include hx hy

/-- Once the parameters resolve, what remains is the address the jump goes to and the commit. -/
theorem State.jumpIf_of_resolvesTo :
    s.jumpIf cond a target = s.conclude (do
      let next ← s.jumpNext (cond (s.operand a x)) (s.operand target y)
      pure (s.retire next)) := by
  simp only [State.jumpIf, State.resolve_of_resolvesTo hx, State.resolve_of_resolvesTo hy,
    except_bind_ok]

/-- A taken jump goes to its target, which must not be negative. -/
theorem State.jumpIf_of_taken (hc : cond (s.operand a x) = true) :
    (0 ≤ (s.operand target y).toInt → s.jumpIf cond a target =
      .next { s with pc := (s.operand target y).toInt.toNat, status := .running }) ∧
    ((s.operand target y).toInt < 0 → s.jumpIf cond a target =
      .next (s.raise ⟨.negativeAddress, some 1, (s.operand target y).toInt⟩)) := by
  rw [State.jumpIf_of_resolvesTo hx hy, State.jumpNext, if_pos hc]
  refine ⟨fun h => ?_, fun h => ?_⟩
  · rw [jumpTarget_of_nonneg h]
    rfl
  · rw [jumpTarget_of_neg h]
    rfl

/-- A jump that is not taken falls through, which must stay in Addr. -/
theorem State.jumpIf_of_not_taken (hc : cond (s.operand a x) = false) :
    (s.pc + 3 ≤ addrMax → s.jumpIf cond a target =
      .next { s with pc := s.pc + 3, status := .running }) ∧
    (addrMax < s.pc + 3 → s.jumpIf cond a target =
      .next (s.raise ⟨.addressOverflow, none, ((s.pc + 3 : Nat) : Int)⟩)) := by
  rw [State.jumpIf_of_resolvesTo hx hy, State.jumpNext, hc, if_neg Bool.false_ne_true]
  refine ⟨fun h => ?_, fun h => ?_⟩
  · rw [State.fallthrough_eq_ok.mpr ⟨rfl, h⟩]
    rfl
  · rw [State.fallthrough_of_gt h]
    rfl

/-- What a jump does that is taken where `jumps` holds and not where `falls` does: JNZ and JZ, which differ in these alone. -/
theorem State.jumpIf_of_condition {jumps falls : Prop}
    (htaken : jumps → cond (s.operand a x) = true)
    (hfalls : falls → cond (s.operand a x) = false) :
    (jumps → 0 ≤ (s.operand target y).toInt → s.jumpIf cond a target =
      .next { s with pc := (s.operand target y).toInt.toNat, status := .running }) ∧
    (jumps → (s.operand target y).toInt < 0 → s.jumpIf cond a target =
      .next (s.raise ⟨.negativeAddress, some 1, (s.operand target y).toInt⟩)) ∧
    (falls → s.pc + 3 ≤ addrMax → s.jumpIf cond a target =
      .next { s with pc := s.pc + 3, status := .running }) ∧
    (falls → addrMax < s.pc + 3 → s.jumpIf cond a target =
      .next (s.raise ⟨.addressOverflow, none, ((s.pc + 3 : Nat) : Int)⟩)) := by
  have ht := fun h => State.jumpIf_of_taken hx hy (htaken h)
  have hf := fun h => State.jumpIf_of_not_taken hx hy (hfalls h)
  exact ⟨fun h => (ht h).1, fun h => (ht h).2, fun h => (hf h).1, fun h => (hf h).2⟩

end

/-- Settles O22: JNZ is the jump on a value that is not 0. -/
theorem jnzJumpsOnNonzero : Obligations.JnzJumpsOnNonzero := by
  refine ⟨fetchedBy_of_decodeF2 .jnz (fun _ => rfl) (fun _ _ => rfl), fun a target s => ?_⟩
  rw [exec_jnz]
  exact ⟨fun _ he => State.jumpIf_of_firstFailure he,
    fun _ _ hx hy => State.jumpIf_of_condition hx hy isNonzero_eq_true.mpr isNonzero_eq_false.mpr⟩

/-- Settles O23: JZ is the jump on the value 0. -/
theorem jzJumpsOnZero : Obligations.JzJumpsOnZero := by
  refine ⟨fetchedBy_of_decodeF2 .jz (fun _ => rfl) (fun _ _ => rfl), fun a target s => ?_⟩
  rw [exec_jz]
  exact ⟨fun _ he => State.jumpIf_of_firstFailure he,
    fun _ _ hx hy => State.jumpIf_of_condition hx hy isZero_eq_true.mpr isZero_eq_false.mpr⟩

end Sys2Proof.Machine
end

section
/-! LT and EQ: a comparison stores the word 1 or 0 and never overflows (44_compare.md R88, R89). -/

namespace Sys2Proof.Machine

/-! The comparisons and the word they answer -/

@[simp] theorem signedLess_eq_true {v w : Word} : signedLess v w = true ↔ v.toInt < w.toInt :=
  decide_eq_true_iff

/-- Words have the same value exactly where they are the same word. -/
@[simp] theorem sameValue_eq_true {v w : Word} : sameValue v w = true ↔ v = w :=
  decide_eq_true_iff.trans BitVec.toInt_inj

theorem truthWord_of_iff {c : Bool} {p : Prop} [Decidable p] (h : c = true ↔ p) :
    truthWord c = if p then 1#64 else 0#64 :=
  if_congr h rfl rfl

/-! An instruction of format F3 that stores a comparison -/

/-- What an F3 instruction does whose result is the word of a comparison that answers whether `p` holds: LT and EQ, which differ in `p` alone. -/
theorem State.binaryStore_of_comparison {s : State} {cmp : Word → Word → Bool} {a b dst : Param}
    {x y d : Nat} (hx : ResolvesTo s 0 .source a x) (hy : ResolvesTo s 1 .source b y)
    (hd : ResolvesTo s 2 .destination dst d) {p : Prop} [Decidable p]
    (hcmp : cmp (s.operand a x) (s.operand b y) = true ↔ p) :
    (s.pc + 4 ≤ addrMax → s.binaryStore (fun v w => .ok (truthWord (cmp v w))) a b dst =
      .next { s with
        mem := s.mem.write d (if p then 1#64 else 0#64)
        pc := s.pc + 4, status := .running }) ∧
    (addrMax < s.pc + 4 → s.binaryStore (fun v w => .ok (truthWord (cmp v w))) a b dst =
      .next (s.raise ⟨.addressOverflow, none, ((s.pc + 4 : Nat) : Int)⟩)) := by
  rw [← truthWord_of_iff hcmp]
  exact ⟨State.binaryStore_of_ok hx hy hd rfl,
    State.binaryStore_of_fallthrough_overflow hx hy hd rfl⟩

/-- Settles O24: LT is the F3 instruction that stores the signed comparison of its operands. -/
theorem ltStoresSignedComparison : Obligations.LtStoresSignedComparison := by
  refine ⟨fetchedBy_of_decodeF3 .lt (fun _ => rfl) (fun _ _ => rfl), fun a b dst s => ?_⟩
  rw [exec_lt]
  exact ⟨fun _ he => State.binaryStore_of_firstFailure he,
    fun _ _ _ hx hy hd => State.binaryStore_of_comparison hx hy hd signedLess_eq_true⟩

/-- Settles O25: EQ is the F3 instruction that stores whether its operands are the same word. -/
theorem eqStoresEquality : Obligations.EqStoresEquality := by
  refine ⟨fetchedBy_of_decodeF3 .eq (fun _ => rfl) (fun _ _ => rfl), fun a b dst s => ?_⟩
  rw [exec_eq]
  exact ⟨fun _ he => State.binaryStore_of_firstFailure he,
    fun _ _ _ hx hy hd => State.binaryStore_of_comparison hx hy hd sameValue_eq_true⟩

end Sys2Proof.Machine
end

section
/-! ARB: what it does in each of its cases (45_base_halt.md R90). -/

namespace Sys2Proof.Machine

/-- An opcode of format F1 is fetched with its one parameter, whatever the two words after it are (30_encoding.md R47, R50). -/
theorem fetchedBy_of_decodeF1 (op : Opcode) {enabled : OpcodeSet → Bool} {mk : Param → Instr}
    (hen : ∀ cfg : Config, cfg.opcodeEnabled op = enabled cfg.opcodes)
    (hmk : ∀ w ws, decodeParams op w ws = decodeF1 mk w ws) :
    FetchedBy op.number enabled fun s => mk (s.paramAt 0) := by
  refine fetchedBy_of_decodeParams op hen fun s =>
    ⟨[s.mem.read (s.pc + 2), s.mem.read (s.pc + 3)], ?_⟩
  rw [hmk]
  rfl

theorem exec_arb (a : Param) (s : State) : exec (.arb a) s = execArb a s := rfl

section
variable {s : State} {a : Param}

/-- The parameter's fault is the instruction's, whatever the relative base is. -/
theorem execArb_of_firstFailure {e : Raise} (h : FirstFailure s [(0, .source, a)] e) :
    execArb a s = .next (s.raise e) := by
  refine congrArg s.conclude (a₂ := .error e) ?_
  exact State.resolve_bind_of_firstFailure h fun _ h => h.elim

variable {x : Nat} (hx : ResolvesTo s 0 .source a x)
include hx

/-- Once the parameter resolves, what remains is the ALU's sum, the fall-through and the commit. -/
theorem execArb_of_resolvesTo :
    execArb a s = s.conclude (do
      let r ← alu s.config (s.rb.toInt + (s.operand a x).toInt)
      let next ← s.fallthrough 1
      pure ((s.setRb r).retire next)) := by
  rw [execArb, State.resolve_of_resolvesTo hx, except_bind_ok]

theorem execArb_of_overflow_fault (hv : ¬ InI64 (s.rb.toInt + (s.operand a x).toInt))
    (hp : s.config.overflow = .fault) :
    execArb a s = .next (s.raise
      ⟨.arithmeticOverflow, none, s.rb.toInt + (s.operand a x).toInt⟩) := by
  rw [execArb_of_resolvesTo hx, alu_of_overflow_fault hv hp, except_bind_error,
    State.conclude_error]

variable {r : Word} (hr : AluGives s.config (s.rb.toInt + (s.operand a x).toInt) r)
include hr

theorem execArb_of_aluGives (hpc : s.pc + 2 ≤ addrMax) :
    execArb a s = .next { s with rb := r, pc := s.pc + 2, status := .running } := by
  have hnext : s.fallthrough 1 = .ok (s.pc + 2) := State.fallthrough_eq_ok.mpr ⟨rfl, hpc⟩
  rw [execArb_of_resolvesTo hx, alu_of_aluGives hr, except_bind_ok, hnext, except_bind_ok]
  rfl

theorem execArb_of_fallthrough_overflow (hpc : addrMax < s.pc + 2) :
    execArb a s = .next (s.raise ⟨.addressOverflow, none, ((s.pc + 2 : Nat) : Int)⟩) := by
  rw [execArb_of_resolvesTo hx, alu_of_aluGives hr, except_bind_ok, State.fallthrough_of_gt hpc,
    except_bind_error, State.conclude_error]

end

/-- Settles O26: the parameter resolves or raises its fault, the ALU answers the sum or overflows, and the fall-through stays in Addr or leaves it. -/
theorem arbAdjustsTheBase : Obligations.ArbAdjustsTheBase := by
  refine ⟨fetchedBy_of_decodeF1 .arb (fun _ => rfl) (fun _ _ => rfl), fun a s => ?_⟩
  rw [exec_arb]
  exact ⟨fun _ he => execArb_of_firstFailure he, fun _ hx =>
    ⟨execArb_of_overflow_fault hx, fun _ hr =>
      ⟨execArb_of_aluGives hx hr, execArb_of_fallthrough_overflow hx hr⟩⟩⟩

end Sys2Proof.Machine
end

section
/-! The decoder over the encoder, and the words an instruction is made of (30_encoding.md R46 to R61). -/

namespace Sys2Proof

@[simp] theorem Mode.ofDigit_digit (m : Mode) : Mode.ofDigit m.digit = m := by
  cases m with
  | undefined k => revert k; decide
  | position | immediate | relative => rfl

/-- The mode digits of the canonical word are those of the parameters (R47, R58). -/
theorem Instr.canonical_digit (i : Instr) :
    ∀ q ∈ i.params, i.canonical / modeWeight q.1 % 10 = q.2.2.mode.digit := by
  have hlt := Laws.Encoding.digit_lt
  cases i with
  | add a b dst | mul a b dst | lt a b dst | eq a b dst =>
    have ha := hlt a.mode; have hb := hlt b.mode; have hd := hlt dst.mode
    simp [Instr.params, Instr.canonical, Instr.opcode, Opcode.number, modeWeight]
    omega
  | jnz a b | jz a b =>
    have ha := hlt a.mode; have hb := hlt b.mode
    simp [Instr.params, Instr.canonical, Instr.opcode, Opcode.number, modeWeight]
    omega
  | inp a | out a | arb a =>
    have ha := hlt a.mode
    simp [Instr.params, Instr.canonical, Instr.opcode, Opcode.number, modeWeight]
    omega
  | hlt => simp [Instr.params]

/-- The canonical word has the instruction's opcode in its low two digits, and at most five digits (R58). -/
theorem Instr.canonical_opcode (i : Instr) :
    i.canonical % 100 = i.opcode.number ∧ i.canonical < 100000 := by
  cases i with
  | add a b dst => exact (Laws.Encoding.add a b dst).2.2
  | mul a b dst => exact (Laws.Encoding.mul a b dst).2.2
  | inp dst => exact (Laws.Encoding.inp dst).2.2
  | out a => exact (Laws.Encoding.out a).2.2
  | jnz a target => exact (Laws.Encoding.jnz a target).2.2
  | jz a target => exact (Laws.Encoding.jz a target).2.2
  | lt a b dst => exact (Laws.Encoding.lt a b dst).2.2
  | eq a b dst => exact (Laws.Encoding.eq a b dst).2.2
  | arb a => exact (Laws.Encoding.arb a).2.2
  | hlt => exact Laws.Encoding.hlt.2.2

theorem Instr.roles_opcode (i : Instr) : i.params.map (fun q => (q.1, q.2.1)) = i.opcode.roles := by
  cases i <;> rfl

theorem Instr.length_params (i : Instr) : i.params.length = i.opcode.nparams := by
  cases i <;> rfl

theorem Word.toNat_ofNat {n : Nat} (h : n < 100000) : (Word.ofNat n).toNat = n := by
  simp [Word.ofNat]; omega

theorem Word.toInt_ofNat_nonneg {n : Nat} (h : n < 100000) : 0 ≤ (Word.ofNat n).toInt := by
  rw [BitVec.toInt_eq_toNat_of_lt (by rw [Word.toNat_ofNat h]; omega)]
  omega

/-- The parameters decode to an instruction exactly where its opcode, its modes and its parameter words are those given (R46, R47, R50). -/
theorem decodeParams_eq_ok {op : Opcode} {w : Word} {ws rest : List Word} {i : Instr} :
    decodeParams op w ws = .ok (i, rest) ↔
      i.opcode = op ∧ (∀ q ∈ i.params, q.2.2.mode = modeOf w q.1) ∧
        ws = i.params.map (fun q => q.2.2.word) ++ rest := by
  constructor
  · intro h
    obtain ⟨hop, hmodes⟩ := decodeParams_ok h
    refine ⟨hop, hmodes, ?_⟩
    cases op with
    | add | mul | lt | eq =>
      obtain ⟨p0, p1, p2, rfl, rfl⟩ := decodeF3_eq_ok.mp h
      rfl
    | jnz | jz =>
      obtain ⟨p0, p1, rfl, rfl⟩ := decodeF2_eq_ok.mp h
      rfl
    | inp | out | arb =>
      obtain ⟨p0, rfl, rfl⟩ := decodeF1_eq_ok.mp h
      rfl
    | hlt => cases h; rfl
  · rintro ⟨rfl, hmodes, rfl⟩
    cases i with
    | add a b dst | mul a b dst | lt a b dst | eq a b dst =>
      obtain ⟨ha, hb, hd⟩ : a.mode = modeOf w 0 ∧ b.mode = modeOf w 1 ∧ dst.mode = modeOf w 2 := by
        simpa [Instr.params] using hmodes
      exact decodeF3_eq_ok.mpr ⟨a.word, b.word, dst.word, rfl, by rw [← ha, ← hb, ← hd]⟩
    | jnz a b | jz a b =>
      obtain ⟨ha, hb⟩ : a.mode = modeOf w 0 ∧ b.mode = modeOf w 1 := by
        simpa [Instr.params] using hmodes
      exact decodeF2_eq_ok.mpr ⟨a.word, b.word, rfl, by rw [← ha, ← hb]⟩
    | inp a | out a | arb a =>
      have ha : a.mode = modeOf w 0 := by simpa [Instr.params] using hmodes
      exact decodeF1_eq_ok.mpr ⟨a.word, rfl, by rw [← ha]⟩
    | hlt => rfl

/-- Settles O1: the canonical word has the opcode and the modes of the instruction, and the words after it are its parameter words. -/
theorem decodeEncodeRoundTrip : Obligations.DecodeEncodeRoundTrip := by
  intro cfg i rest hen
  obtain ⟨hnum, hlt⟩ := i.canonical_opcode
  have hop : decodeOpcode cfg (Word.ofNat i.canonical) = some i.opcode :=
    decodeOpcode_eq_some.mpr
      ⟨Word.toInt_ofNat_nonneg hlt, by rw [Word.toNat_ofNat hlt, hnum], hen⟩
  have hmodes : ∀ q ∈ i.params, q.2.2.mode = modeOf (Word.ofNat i.canonical) q.1 := by
    intro q hq
    rw [modeOf, modeDigit, Word.toNat_ofNat hlt, i.canonical_digit q hq, Mode.ofDigit_digit]
  exact decode_cons_eq_ok.mpr ⟨i.opcode, hop, decodeParams_eq_ok.mpr ⟨rfl, hmodes, rfl⟩⟩

/-- Settles O2, by evaluating the decoder on the spec's words. -/
theorem specWordsDecode : Obligations.SpecWordsDecode := by
  unfold Obligations.SpecWordsDecode
  decide

/-- The word of parameter `k` is the `k`-th of the parameter words (R46). -/
theorem Instr.getElem?_words (i : Instr) :
    ∀ q ∈ i.params, (i.params.map fun r => r.2.2.word)[q.1.val]? = some q.2.2.word := by
  cases i <;> simp [Instr.params]

namespace Machine

/-- The words after the first of the four a step fetches: the slots of the parameters (R46). -/
theorem State.getElem?_slots (s : State) (k : ParamIndex) :
    [s.mem.read (s.pc + 1), s.mem.read (s.pc + 2), s.mem.read (s.pc + 3)][k.val]? =
      some (s.mem.read (s.pc + k.val + 1)) := by
  fin_cases k <;> rfl

/-- A fetch answers what the four words decode to. -/
theorem State.fetch_eq_ok {s : State} {i : Instr} :
    s.fetch = .ok i ↔ ∃ rest, decode s.config s.fetchWords = .ok (i, rest) := by
  unfold State.fetch
  split <;> simp_all

/-- The word of parameter `k` of a fetched instruction is the word in its slot (R46, R57). -/
theorem State.word_of_fetch {s : State} {i : Instr} (h : s.fetch = .ok i) {k : ParamIndex}
    {role : Role} {p : Param} (hp : (k, role, p) ∈ i.params) :
    p.word = s.mem.read (s.slot k) := by
  obtain ⟨rest, h⟩ := State.fetch_eq_ok.mp h
  obtain ⟨op, -, h⟩ := decode_cons_eq_ok.mp h
  obtain ⟨-, -, hwords⟩ := decodeParams_eq_ok.mp h
  have hk := s.getElem?_slots k
  have hword := i.getElem?_words (k, role, p) hp
  rw [hwords, List.getElem?_append_left (List.getElem?_eq_some_iff.mp hword).1, hword] at hk
  exact Option.some.inj hk

/-- Settles O7: the decoder takes the parameter words of the instruction, and those of a fetch stand in the slots. -/
theorem instructionIsItsWords : Obligations.InstructionIsItsWords := by
  refine ⟨fun cfg w ws rest i h => ?_, fun s i h k role p hp => State.word_of_fetch h hp⟩
  obtain ⟨op, -, h⟩ := decode_cons_eq_ok.mp h
  obtain ⟨rfl, -, hwords⟩ := decodeParams_eq_ok.mp h
  exact ⟨hwords, i.length_params⟩

/-- Settles O3: a negative word has no opcode. -/
theorem negativeWordIsUnknownOpcode : Obligations.NegativeWordIsUnknownOpcode := by
  have hnone (cfg : Config) (w : Word) (hw : w.toInt < 0) : decodeOpcode cfg w = none := by
    rw [decodeOpcode, if_pos hw]
  exact ⟨fun cfg w ws hw => decode_cons_of_none (hnone cfg w hw) ws,
    fun s hl hp hw => step_of_no_opcode hl hp (hnone _ _ hw)⟩

end Machine

end Sys2Proof
end

section
/-! Memory: the address check, the canonical form and a program image (10_state.md R23, 20_memory.md R29 to R36). -/

namespace Sys2Proof.Machine

/-! The address check (20_memory.md R30, 40_execution_cycle.md R71) -/

theorem checkAddress_of_neg {param : Option ParamIndex} {a : Int} (h : a < 0) :
    checkAddress param a = .error ⟨.negativeAddress, param, a⟩ := by
  rw [checkAddress, if_pos h]

theorem checkAddress_of_gt {param : Option ParamIndex} {a : Int} (h : (addrMax : Int) < a) :
    checkAddress param a = .error ⟨.addressOverflow, param, a⟩ := by
  rw [checkAddress, if_neg (by omega), if_pos h]

/-- An address in Addr as an integer passes the check as itself. -/
theorem checkAddress_of_le {param : Option ParamIndex} {a : Int} (h : 0 ≤ a) (h' : a ≤ addrMax) :
    checkAddress param a = .ok a.toNat :=
  checkAddress_eq_ok.mpr ⟨by omega, by omega⟩

theorem memRead_of_le {m : Memory} {a : Int} (h : 0 ≤ a) (h' : a ≤ addrMax) :
    memRead m a = .ok (m.read a.toNat) := by
  rw [memRead, checkAddress_of_le h h']

theorem memWrite_of_le {m : Memory} {a : Int} {v : Word} (h : 0 ≤ a) (h' : a ≤ addrMax) :
    memWrite m a v = .ok (m.write a.toNat v) := by
  rw [memWrite, checkAddress_of_le h h']

/-- Where the address check fails, it answers the same fault for every memory. -/
theorem memRead_of_error {m : Memory} {a : Int} {e : Raise} (h : checkAddress none a = .error e) :
    memRead m a = .error e := by
  rw [memRead, h]

theorem memWrite_of_error {m : Memory} {a : Int} {v : Word} {e : Raise}
    (h : checkAddress none a = .error e) : memWrite m a v = .error e := by
  rw [memWrite, h]

/-- A write of one word leaves what is read at every other integer, in Addr or outside. -/
theorem memRead_write_of_ne {m : Memory} {a : Nat} {b : Int} (v : Word) (h : b ≠ a) :
    memRead (m.write a v) b = memRead m b := by
  cases hb : checkAddress none b with
  | error e => rw [memRead_of_error hb, memRead_of_error hb]
  | ok n =>
    obtain ⟨rfl, -⟩ := checkAddress_eq_ok.mp hb
    simp only [memRead, hb]
    rw [Memory.read_write_of_ne m v (by omega)]

/-- Settles O9: the address check decides, and a write in Addr is `Memory.write`. -/
theorem writeChangesOneWord : Obligations.WriteChangesOneWord := by
  intro m a v
  refine ⟨fun h h' => ⟨m.write a.toNat v, memWrite_of_le h h', ?_, fun b hb => ?_⟩,
    fun h => memWrite_of_error (checkAddress_of_neg h),
    fun h => memWrite_of_error (checkAddress_of_gt h)⟩
  · rw [memRead_of_le h h', Memory.read_write_same]
  · exact memRead_write_of_ne v (by omega)

/-! The canonical form (10_state.md R23) -/

theorem Memory.read_of_unlisted {m : Memory} {a : Nat} (h : ∀ c ∈ m, c.1 ≠ a) :
    m.read a = 0#64 := by
  induction m with
  | nil => rfl
  | cons c m ih =>
    rw [Memory.read_cons, if_neg (h c (by simp)).symm]
    exact ih fun d hd => h d (by simp [hd])

/-- With rising addresses an entry is what a read of its address answers. -/
theorem Memory.read_of_mem {m : Memory} (hm : m.Pairwise (fun x y => x.1 < y.1)) {c : Nat × Word}
    (hc : c ∈ m) : m.read c.1 = c.2 := by
  induction m with
  | nil => cases hc
  | cons d m ih =>
    obtain ⟨hd, hm⟩ := List.pairwise_cons.mp hm
    rcases List.mem_cons.mp hc with rfl | hc
    · simp
    · rw [Memory.read_cons, if_neg (hd c hc).ne', ih hm hc]

/-- The entries of a canonical memory are the addresses that do not read 0, each with its word. -/
theorem Memory.mem_iff_read {m : Memory} (hm : m.wf) {c : Nat × Word} :
    c ∈ m ↔ c.2 ≠ 0#64 ∧ m.read c.1 = c.2 := by
  refine ⟨fun hc => ⟨(hm.2 c hc).2, Memory.read_of_mem hm.1 hc⟩, fun ⟨hne, hread⟩ => ?_⟩
  by_contra hc
  refine hne (hread.symm.trans (Memory.read_of_unlisted fun d hd heq => hc ?_))
  have hdc : d.2 = c.2 := by rw [← Memory.read_of_mem hm.1 hd, heq, hread]
  rwa [← Prod.ext heq hdc]

/-- Settles O10: memories that read alike have the same entries, and rising addresses fix their order. -/
theorem canonicalMemoryIsUnique : Obligations.CanonicalMemoryIsUnique := by
  intro m m' hm hm' hread
  have nodup {l : Memory} (hl : l.wf) : l.Nodup := hl.1.imp fun h heq => by simp [heq] at h
  have hperm : m.Perm m' := (List.perm_ext_iff_of_nodup (nodup hm) (nodup hm')).mpr fun c => by
    rw [Memory.mem_iff_read hm, Memory.mem_iff_read hm', hread]
  exact hperm.eq_of_pairwise (fun _ _ _ _ h h' => absurd h h'.asymm) hm.1 hm'.1

/-! A program image (20_memory.md R36, 70_reset_and_hazards.md R121) -/

/-- An image from address `a` on holds its `k`-th word at `a + k`, and 0 past its end. -/
theorem Memory.read_ofImage (a k : Nat) (vs : List Word) :
    (Memory.ofImage a vs).read (a + k) = vs[k]?.getD 0#64 := by
  induction vs generalizing a k with
  | nil => rfl
  | cons v vs ih =>
    have hbelow : (Memory.ofImage (a + 1) vs).read a = 0#64 :=
      Memory.read_of_unlisted fun c hc => (Nat.lt_of_succ_le (Memory.le_of_mem_ofImage hc).1).ne'
    cases k with
    | zero =>
      by_cases hv : v = 0#64
      · simp [Memory.ofImage, hv, hbelow]
      · simp [Memory.ofImage, hv]
    | succ k =>
      have hne : a + (k + 1) ≠ a := by omega
      rw [Memory.ofImage, List.getElem?_cons_succ, ← ih (a + 1) k,
        show a + 1 + k = a + (k + 1) by omega]
      by_cases hv : v = 0#64
      · rw [if_pos hv]
      · rw [if_neg hv, Memory.read_cons, if_neg hne]

theorem State.read_construct (cfg : Config) (image : Image) (a : Nat) :
    (State.construct cfg image).mem.read a = image.val[a]?.getD 0#64 := by
  have h := Memory.read_ofImage 0 a image.val
  rwa [Nat.zero_add] at h

/-- Settles O49: the memory is that of the image, and the registers are those `State.construct` writes out. -/
theorem constructionLoadsTheImage : Obligations.ConstructionLoadsTheImage := by
  intro cfg image s
  refine ⟨fun a h => ?_, fun a h => ?_, rfl, rfl, rfl, rfl, rfl, rfl, fun _ _ => rfl⟩
  · rw [State.read_construct, List.getElem?_eq_getElem h, Option.getD_some]
  · rw [State.read_construct, List.getElem?_eq_none h, Option.getD_none]

end Sys2Proof.Machine
end

section
/-! The ALU (41_arithmetic.md R82). -/

namespace Sys2Proof.Machine

/-- Settles O17: the word the ALU answers holds the exact value, or `wrap64` of it, since both lie in I64. -/
theorem aluIsExactThenPolicy : Obligations.AluIsExactThenPolicy := by
  intro cfg v
  refine ⟨fun h => ?_, alu_of_overflow_fault, fun h hp => ?_⟩
  · have hv : (Word.ofInt v).toInt = v := Word.toInt_ofInt h
    exact ⟨Word.ofInt v, alu_of_aluGives (.inl ⟨h, hv⟩), hv⟩
  · have hw : (Word.ofInt (wrap64 v)).toInt = wrap64 v := Word.toInt_ofInt (wrap64_inI64 v)
    exact ⟨Word.ofInt (wrap64 v), alu_of_aluGives (.inr ⟨h, hp, hw⟩), hw⟩

end Sys2Proof.Machine
end

section
/-! The resolver: it answers an address or the fault of the first check that fails (40_execution_cycle.md R65 to R73). -/

namespace Sys2Proof.Machine

theorem Config.immDestForbidden_iff {cfg : Config} {role : Role} {m : Mode} :
    cfg.immDestForbidden role m = true ↔
      role = .destination ∧ m = .immediate ∧ cfg.immDest = .fault := by
  simp [Config.immDestForbidden, and_assoc]

section
variable {s : State} {i : ParamIndex} {role : Role} {p : Param}

/-- Every parameter passes all checks, or there is a first that it fails. -/
theorem State.resolvesTo_or_failsWith :
    (∃ a, ResolvesTo s i role p a) ∨ ∃ e, FailsWith s i role p e := by
  cases hen : s.config.modeEnabled p.mode with
  | false => exact .inr ⟨_, .inl ⟨hen, rfl⟩⟩
  | true =>
    cases himm : s.config.immDestForbidden role p.mode with
    | true =>
      obtain ⟨hrole, hmode, hpol⟩ := Config.immDestForbidden_iff.mp himm
      exact .inr ⟨_, .inr (.inl ⟨hen, hrole, hmode, hpol, rfl⟩)⟩
    | false =>
      have hlegal := Config.modeLegal_iff.mpr ⟨hen, himm⟩
      rcases lt_or_ge addrMax (s.slot i) with hslot | hslot
      · exact .inr ⟨_, .inr (.inr (.inl ⟨hlegal, hslot, rfl⟩))⟩
      · rcases lt_or_ge (s.effectiveAddress i p) 0 with hneg | hneg
        · exact .inr ⟨_, .inr (.inr (.inr (.inl ⟨hlegal, hslot, hneg, rfl⟩)))⟩
        · rcases lt_or_ge (addrMax : Int) (s.effectiveAddress i p) with hgt | hle
          · exact .inr ⟨_, .inr (.inr (.inr (.inr ⟨hlegal, hslot, hgt, rfl⟩)))⟩
          · exact .inl ⟨(s.effectiveAddress i p).toNat, hlegal, hslot, by omega, by omega⟩

theorem State.resolve_eq_ok {a : Nat} :
    s.resolve i role p = .ok a ↔ ResolvesTo s i role p a :=
  ⟨State.resolve_ok, State.resolve_of_resolvesTo⟩

theorem State.resolve_eq_error {e : Raise} :
    s.resolve i role p = .error e ↔ FailsWith s i role p e := by
  refine ⟨fun h => ?_, State.resolve_of_failsWith⟩
  rcases State.resolvesTo_or_failsWith (s := s) (i := i) (role := role) (p := p) with
    ⟨a, ha⟩ | ⟨e', he'⟩
  · rw [State.resolve_of_resolvesTo ha] at h
    cases h
  · rw [State.resolve_of_failsWith he'] at h
    cases h
    exact he'

/-- A parameter whose mode is legal can fail by its slot or its address only. -/
theorem FailsWith.of_modeLegal {e : Raise} (h : FailsWith s i role p e)
    (hlegal : s.config.modeLegal role p.mode = true) :
    e.param = some i ∧ (e.code = .negativeAddress ∨ e.code = .addressOverflow) := by
  obtain ⟨hen, himm⟩ := Config.modeLegal_iff.mp hlegal
  rcases h with ⟨hmode, -⟩ | ⟨-, hrole, hmode, hpol, -⟩ | ⟨-, -, rfl⟩ | ⟨-, -, -, rfl⟩ |
    ⟨-, -, -, rfl⟩
  · simp [hen] at hmode
  · rw [Config.immDestForbidden_iff.mpr ⟨hrole, hmode, hpol⟩] at himm
    cases himm
  · exact ⟨rfl, .inr rfl⟩
  · exact ⟨rfl, .inl rfl⟩
  · exact ⟨rfl, .inr rfl⟩

/-- A parameter whose mode is not legal raises `InvalidMode` with its digit: a forbidden immediate destination has the digit 1. -/
theorem State.failsWith_of_not_modeLegal (h : s.config.modeLegal role p.mode = false) :
    FailsWith s i role p ⟨.invalidMode, some i, (p.mode.digit : Int)⟩ := by
  cases hen : s.config.modeEnabled p.mode with
  | false => exact .inl ⟨hen, rfl⟩
  | true =>
    have himm : s.config.immDestForbidden role p.mode = true := by
      simpa [Config.modeLegal, hen] using h
    obtain ⟨hrole, hmode, hpol⟩ := Config.immDestForbidden_iff.mp himm
    exact .inr (.inl ⟨hen, hrole, hmode, hpol, by rw [hmode]; rfl⟩)

end

/-- Settles O11: every parameter resolves or fails with one fault, and the resolver answers it. -/
theorem resolverChecksInOrder : Obligations.ResolverChecksInOrder :=
  fun _ _ _ _ => ⟨fun _ => State.resolve_eq_ok, fun _ => State.resolve_eq_error⟩

/-- Settles O12: the address is the exact one of the mode, which the check leaves as it is. -/
theorem resolvedAddressByMode : Obligations.ResolvedAddressByMode := by
  intro s i role p a h
  obtain ⟨-, -, haddr, -⟩ := State.resolve_ok h
  unfold State.effectiveAddress at haddr
  refine ⟨fun hm => ?_, fun hm => ?_, fun hm => ?_⟩
  · rw [hm] at haddr
    exact haddr.symm
  · rw [hm] at haddr
    exact (Int.ofNat_inj.mp haddr).symm
  · rw [hm] at haddr
    exact haddr.symm

/-- An enabled mode has one of the digits 0, 1 and 2 (R65). -/
theorem Config.digit_of_modeEnabled {cfg : Config} {m : Mode} (h : cfg.modeEnabled m = true) :
    (m.digit = 0 ∧ cfg.modes.position = true) ∨ (m.digit = 1 ∧ cfg.modes.immediate = true) ∨
      (m.digit = 2 ∧ cfg.modes.relative = true) := by
  cases m with
  | position => exact .inl ⟨rfl, h⟩
  | immediate => exact .inr (.inl ⟨rfl, h⟩)
  | relative => exact .inr (.inr ⟨rfl, h⟩)
  | undefined k => cases h

/-- Settles O13: a mode with another digit is not enabled, the first check of the resolver. -/
theorem disallowedModeDigitRaises : Obligations.DisallowedModeDigitRaises := by
  intro s i role p h
  have hen : s.config.modeEnabled p.mode = false :=
    Bool.eq_false_iff.mpr fun hen => h (Config.digit_of_modeEnabled hen)
  exact State.resolve_of_failsWith (.inl ⟨hen, rfl⟩)

/-- Settles O14: under `Fault` the mode is forbidden; under `WriteSlot` it is legal, and the slot and the address are the same. -/
theorem immediateDestinationPolicy : Obligations.ImmediateDestinationPolicy := by
  intro s i p hmode himm
  have hen : s.config.modeEnabled p.mode = true := by rw [hmode]; exact himm
  have hlegal (hpol : s.config.immDest = .writeSlot) :
      s.config.modeLegal .destination p.mode = true := by
    simp [Config.modeLegal, Config.immDestForbidden, hen, hpol]
  have haddr : s.effectiveAddress i p = (s.slot i : Int) := by rw [State.effectiveAddress, hmode]
  exact ⟨fun hpol => State.resolve_of_failsWith (.inr (.inl ⟨hen, rfl, hmode, hpol, rfl⟩)),
    fun hpol hle => State.resolve_of_resolvesTo ⟨hlegal hpol, hle, haddr, hle⟩,
    fun hpol hgt => State.resolve_of_failsWith (.inr (.inr (.inl ⟨hlegal hpol, hgt, rfl⟩)))⟩

/-- Settles O15: in immediate mode the operand is the parameter word, which a fetch takes from the slot, and the slot is the address; in the other modes it is read from the address. -/
theorem operandIsWordAtItsAddress : Obligations.OperandIsWordAtItsAddress := by
  intro s i k role p a hi hp h
  cases hm : p.mode with
  | immediate =>
    obtain ⟨-, himm, -⟩ := resolvedAddressByMode s k role p a h
    rw [State.operand, hm, State.word_of_fetch hi hp, himm hm]
    rfl
  | position | relative | undefined => rw [State.operand, hm]

end Sys2Proof.Machine
end

section
/-! IN, OUT and HLT, and the order of an instruction's checks (42_io.md R83, R84, 45_base_halt.md R91, 60_exceptions.md R110). -/

namespace Sys2Proof.Machine

theorem exec_inp (dst : Param) (s : State) : exec (.inp dst) s = execIn dst s := rfl

theorem exec_out (a : Param) (s : State) : exec (.out a) s = execOut a s := rfl

theorem exec_hlt (s : State) : exec .hlt s = .next s.halt := rfl

section
variable {s : State} {dst : Param}

/-- The destination's fault is the instruction's, whatever the input channel holds (R110). -/
theorem execIn_of_firstFailure {e : Raise} (h : FirstFailure s [(0, .destination, dst)] e) :
    execIn dst s = .next (s.raise e) := by
  refine congrArg s.conclude (a₂ := .error e) ?_
  exact State.resolve_bind_of_firstFailure h fun _ h => h.elim

variable {d : Nat} (hd : ResolvesTo s 0 .destination dst d)
include hd

/-- Once the destination resolves, what remains is the input channel. -/
theorem execIn_of_resolvesTo : execIn dst s = s.conclude (s.takeInput d) := by
  rw [execIn, State.resolve_of_resolvesTo hd, except_bind_ok]

theorem execIn_of_empty (hq : s.iq = []) : execIn dst s = .next s.suspend := by
  rw [execIn_of_resolvesTo hd, State.takeInput, hq]
  rfl

theorem execIn_of_front {v : Word} {rest : List Word} (hq : s.iq = v :: rest)
    (hpc : s.pc + 2 ≤ addrMax) : execIn dst s =
      .next { s with mem := s.mem.write d v, iq := rest, pc := s.pc + 2, status := .running } := by
  have hnext : s.fallthrough 1 = .ok (s.pc + 2) := State.fallthrough_eq_ok.mpr ⟨rfl, hpc⟩
  simp only [execIn_of_resolvesTo hd, State.takeInput, hq, hnext]
  rfl

theorem execIn_of_fallthrough_overflow {v : Word} {rest : List Word} (hq : s.iq = v :: rest)
    (hpc : addrMax < s.pc + 2) :
    execIn dst s = .next (s.raise ⟨.addressOverflow, none, ((s.pc + 2 : Nat) : Int)⟩) := by
  simp only [execIn_of_resolvesTo hd, State.takeInput, hq,
    State.fallthrough_of_gt (s := s) (n := 1) hpc]
  rfl

end

/-- Settles O20: the destination resolves or raises its fault, the channel is empty or has a front word, and the fall-through stays in Addr or leaves it. -/
theorem inConsumesOrSuspends : Obligations.InConsumesOrSuspends := by
  refine ⟨fetchedBy_of_decodeF1 .inp (fun _ => rfl) (fun _ _ => rfl), fun dst s => ?_⟩
  rw [exec_inp]
  exact ⟨fun _ he => execIn_of_firstFailure he, fun _ hd => ⟨execIn_of_empty hd,
    fun _ _ hq => ⟨execIn_of_front hd hq, execIn_of_fallthrough_overflow hd hq⟩⟩⟩

section
variable {s : State} {a : Param}

theorem execOut_of_firstFailure {e : Raise} (h : FirstFailure s [(0, .source, a)] e) :
    execOut a s = .next (s.raise e) := by
  refine congrArg s.conclude (a₂ := .error e) ?_
  exact State.resolve_bind_of_firstFailure h fun _ h => h.elim

variable {x : Nat} (hx : ResolvesTo s 0 .source a x)
include hx

/-- Once the parameter resolves, what remains is the fall-through and the commit. -/
theorem execOut_of_resolvesTo :
    execOut a s = s.conclude (do
      let next ← s.fallthrough 1
      pure ((s.emit (s.operand a x)).retire next)) := by
  rw [execOut, State.resolve_of_resolvesTo hx, except_bind_ok]

theorem execOut_of_le (hpc : s.pc + 2 ≤ addrMax) : execOut a s =
    .next { s with oq := s.oq ++ [s.operand a x], pc := s.pc + 2, status := .running } := by
  rw [execOut_of_resolvesTo hx, State.fallthrough_eq_ok.mpr ⟨rfl, hpc⟩]
  rfl

theorem execOut_of_fallthrough_overflow (hpc : addrMax < s.pc + 2) :
    execOut a s = .next (s.raise ⟨.addressOverflow, none, ((s.pc + 2 : Nat) : Int)⟩) := by
  rw [execOut_of_resolvesTo hx, State.fallthrough_of_gt hpc]
  rfl

end

/-- Settles O21: the parameter resolves or raises its fault, and the fall-through stays in Addr or leaves it. -/
theorem outAppendsItsOperand : Obligations.OutAppendsItsOperand := by
  refine ⟨fetchedBy_of_decodeF1 .out (fun _ => rfl) (fun _ _ => rfl), fun a s => ?_⟩
  rw [exec_out]
  exact ⟨fun _ he => execOut_of_firstFailure he,
    fun _ hx => ⟨execOut_of_le hx, execOut_of_fallthrough_overflow hx⟩⟩

/-- Settles O27: HLT has no parameter to decode or to check, and Halted is an inert status. -/
theorem hltHalts : Obligations.HltHalts :=
  ⟨fetchedBy_of_decodeParams .hlt (fun _ => rfl) (fun _ => ⟨_, rfl⟩),
    fun s => ⟨exec_hlt s, step_of_inert rfl⟩⟩

/-- Settles O16: every instruction's chain of checks begins with its parameters, in index order. -/
theorem firstFailingParameterIsReported : Obligations.FirstFailingParameterIsReported := by
  intro i s e h
  cases i with
  | add | mul | lt | eq =>
    simp only [exec_add, exec_mul, exec_lt, exec_eq]
    exact State.binaryStore_of_firstFailure h
  | jnz | jz => exact State.jumpIf_of_firstFailure h
  | inp => exact execIn_of_firstFailure h
  | out => exact execOut_of_firstFailure h
  | arb => exact execArb_of_firstFailure h
  | hlt => exact h.elim

end Sys2Proof.Machine
end

section
/-! What an instruction and a step can do, with the instruction that did it and the fault it took (40_execution_cycle.md R62 to R76, 60_exceptions.md R106 to R110). `exec_cases` names neither. -/

namespace Sys2Proof.Machine

/-! A chain of checks: what its results and its faults are like (R72) -/

/-- Every result of a chain of checks meets `ok`, and every fault of it meets `err`. -/
def Answers {α : Type} (x : Except Raise α) (ok : α → Prop) (err : Raise → Prop) : Prop :=
  (∀ a, x = .ok a → ok a) ∧ ∀ e, x = .error e → err e

section
variable {α β : Type} {ok : α → Prop} {err : Raise → Prop}

theorem Answers.pure {a : α} (h : ok a) : Answers (.ok a) ok err :=
  ⟨fun _ ha => Except.ok.inj ha ▸ h, nofun⟩

theorem Answers.raise {e : Raise} (h : err e) : Answers (α := α) (.error e) ok err :=
  ⟨nofun, fun _ he => Except.error.inj he ▸ h⟩

theorem Answers.bind {x : Except Raise α} {k : α → Except Raise β} {ok' : β → Prop}
    (hx : Answers x ok err) (hk : ∀ a, ok a → Answers (k a) ok' err) :
    Answers (x >>= k) ok' err := by
  cases x with
  | error e => exact .raise (hx.2 e rfl)
  | ok a => exact hk a (hx.1 a rfl)

/-- A chain that begins with a parameter: its faults are the first failures of the parameters, or those of what follows. -/
theorem Answers.param {s : State} {i : ParamIndex} {role : Role} {p : Param}
    {ps : List (ParamIndex × Role × Param)} {k : Nat → Except Raise α}
    (hk : ∀ a, s.resolve i role p = .ok a →
      Answers (k a) ok fun e => FirstFailure s ps e ∨ err e) :
    Answers (s.resolve i role p >>= k) ok fun e =>
      FirstFailure s ((i, role, p) :: ps) e ∨ err e := by
  cases h : s.resolve i role p with
  | error e => exact .raise (.inl (.inl (State.resolve_eq_error.mp h)))
  | ok a =>
    obtain ⟨hok, herr⟩ := hk a h
    exact ⟨hok, fun e he => (herr e he).imp_left fun hf => .inr ⟨⟨a, State.resolve_ok h⟩, hf⟩⟩

/-- After the last parameter only the faults of what follows are left. -/
theorem Answers.noParam {s : State} {x : Except Raise α} (h : Answers x ok err) :
    Answers x ok fun e => FirstFailure s [] e ∨ err e :=
  ⟨h.1, fun e he => .inr (h.2 e he)⟩

end

/-- What `conclude` makes of a chain: its result, or the entry of its fault (60_exceptions.md R107). -/
theorem State.conclude_effect {s t : State} {x : Except Raise State} {ok : State → Prop}
    {err : Raise → Prop} (hx : Answers x ok err) (h : s.conclude x = .next t) :
    ok t ∨ ∃ e, err e ∧ t = s.raise e := by
  rcases State.conclude_eq_next.mp h with h | ⟨e, he, h⟩
  · exact .inl (hx.1 t h)
  · exact .inr ⟨e, hx.2 e he, h⟩

/-! The checks after the parameters (R72, R74, 41_arithmetic.md R82, 43_branch.md R87) -/

/-- The faults an instruction can take once its parameters have resolved: of the ALU, of the fall-through, and of a jump target. -/
inductive LateFault (s : State) : Raise → Prop where
  | alu {v : Int} (hv : ¬ InI64 v) (hp : s.config.overflow = .fault) :
    LateFault s ⟨.arithmeticOverflow, none, v⟩
  | fallthrough {n : Nat} (hn : addrMax < n) : LateFault s ⟨.addressOverflow, none, (n : Int)⟩
  | target {v : Int} (hv : v < 0) : LateFault s ⟨.negativeAddress, some 1, v⟩

theorem alu_answers (s : State) (v : Int) :
    Answers (alu s.config v) (fun _ => True) (LateFault s) := by
  rcases alu_cases s.config v with ⟨-, h⟩ | ⟨hv, hp, h⟩ | ⟨-, -, h⟩
  · exact h ▸ .pure trivial
  · exact h ▸ .raise (.alu hv hp)
  · exact h ▸ .pure trivial

theorem State.fallthrough_answers (s : State) (n : Nat) :
    Answers (s.fallthrough n) (fun next => next = s.pc + 1 + n ∧ next ≤ addrMax) (LateFault s) := by
  rcases Nat.lt_or_ge addrMax (s.pc + 1 + n) with h | h
  · exact State.fallthrough_of_gt h ▸ .raise (.fallthrough h)
  · exact State.fallthrough_eq_ok.mpr ⟨rfl, h⟩ ▸ .pure ⟨rfl, h⟩

theorem State.jumpNext_answers (s : State) (taken : Bool) (w : Word) :
    Answers (s.jumpNext taken w) (fun n => (w.toInt = (n : Int) ∨ n = s.pc + 3) ∧ n ≤ addrMax)
      (LateFault s) := by
  cases taken with
  | true =>
    refine ⟨fun n hn => ⟨.inl (jumpTarget_eq_ok.mp hn), jumpTarget_le hn⟩, ?_⟩
    rcases lt_or_ge w.toInt 0 with h | h
    · intro e he
      cases (jumpTarget_of_neg h).symm.trans he
      exact .target h
    · intro e he
      cases (jumpTarget_of_nonneg h).symm.trans he
  | false =>
    obtain ⟨hok, herr⟩ := s.fallthrough_answers 2
    exact ⟨fun n hn => (hok n hn).imp_left .inr, herr⟩

/-! Instructions -/

/-- What an instruction leaves of a state where it takes no fault (R72 to R74, 42_io.md R83, 45_base_halt.md R91). -/
inductive Commits (s : State) : Instr → State → Prop where
  | store {i : Instr} {a b dst : Param} {d : Nat} (v : Word)
    (hi : i = .add a b dst ∨ i = .mul a b dst ∨ i = .lt a b dst ∨ i = .eq a b dst)
    (hd : s.resolve 2 .destination dst = .ok d) (hpc : s.pc + 4 ≤ addrMax) :
    Commits s i ((s.store d v).retire (s.pc + 4))
  | suspend {dst : Param} (hq : s.iq = []) : Commits s (.inp dst) s.suspend
  | take {dst : Param} {d : Nat} {v : Word} {rest : List Word}
    (hd : s.resolve 0 .destination dst = .ok d) (hq : s.iq = v :: rest)
    (hpc : s.pc + 2 ≤ addrMax) :
    Commits s (.inp dst) (((s.store d v).setInput rest).retire (s.pc + 2))
  | emit {a : Param} (v : Word) (hpc : s.pc + 2 ≤ addrMax) :
    Commits s (.out a) ((s.emit v).retire (s.pc + 2))
  | jump {i : Instr} {a target : Param} {y n : Nat} (hi : i = .jnz a target ∨ i = .jz a target)
    (hy : s.resolve 1 .source target = .ok y)
    (hn : (s.operand target y).toInt = (n : Int) ∨ n = s.pc + 3) (hpc : n ≤ addrMax) :
    Commits s i (s.retire n)
  | setRb {a : Param} (v : Word) (hpc : s.pc + 2 ≤ addrMax) :
    Commits s (.arb a) ((s.setRb v).retire (s.pc + 2))
  | halt : Commits s .hlt s.halt

section
variable {s t : State}

theorem State.binaryStore_effect {f : Word → Word → Except Raise Word} {i : Instr} {a b dst : Param}
    (hi : i = .add a b dst ∨ i = .mul a b dst ∨ i = .lt a b dst ∨ i = .eq a b dst)
    (h : s.binaryStore f a b dst = .next t)
    (hf : ∀ x y, Answers (f x y) (fun _ => True) (LateFault s)) :
    Commits s i t ∨ ∃ e,
      (FirstFailure s [(0, .source, a), (1, .source, b), (2, .destination, dst)] e ∨
        LateFault s e) ∧ t = s.raise e := by
  refine State.conclude_effect ?_ h
  refine .param fun x _ => .param fun y _ => .param fun d hd => .noParam ?_
  refine (hf _ _).bind fun r _ => (s.fallthrough_answers 3).bind fun n hn => ?_
  obtain ⟨rfl, hpc⟩ := hn
  exact .pure (.store r hi hd hpc)

theorem State.jumpIf_effect {cond : Word → Bool} {i : Instr} {a target : Param}
    (hi : i = .jnz a target ∨ i = .jz a target) (h : s.jumpIf cond a target = .next t) :
    Commits s i t ∨ ∃ e, (FirstFailure s [(0, .source, a), (1, .source, target)] e ∨
      LateFault s e) ∧ t = s.raise e := by
  refine State.conclude_effect ?_ h
  refine .param fun x _ => .param fun y hy => .noParam ?_
  exact (s.jumpNext_answers _ _).bind fun n hn => .pure (.jump hi hy hn.1 hn.2)

theorem State.takeInput_answers {dst : Param} {d : Nat}
    (hd : s.resolve 0 .destination dst = .ok d) :
    Answers (s.takeInput d) (Commits s (.inp dst)) (LateFault s) := by
  unfold State.takeInput
  cases hq : s.iq with
  | nil => exact .pure (.suspend hq)
  | cons v rest =>
    obtain ⟨hok, herr⟩ := s.fallthrough_answers 1
    cases hn : s.fallthrough 1 with
    | error e => exact .raise (herr e hn)
    | ok n =>
      obtain ⟨rfl, hpc⟩ := hok n hn
      exact .pure (.take hd hq hpc)

/-- Everything an instruction can do: commit, or the fault of the first parameter that fails, or a later one (R72). -/
theorem exec_effect {i : Instr} (h : exec i s = .next t) :
    Commits s i t ∨ ∃ e, (FirstFailure s i.params e ∨ LateFault s e) ∧ t = s.raise e := by
  cases i with
  | add =>
    rw [exec_add] at h
    exact State.binaryStore_effect (.inl rfl) h fun _ _ => alu_answers s _
  | mul =>
    rw [exec_mul] at h
    exact State.binaryStore_effect (.inr (.inl rfl)) h fun _ _ => alu_answers s _
  | lt =>
    rw [exec_lt] at h
    exact State.binaryStore_effect (.inr (.inr (.inl rfl))) h fun _ _ => .pure trivial
  | eq =>
    rw [exec_eq] at h
    exact State.binaryStore_effect (.inr (.inr (.inr rfl))) h fun _ _ => .pure trivial
  | jnz => exact State.jumpIf_effect (.inl rfl) h
  | jz => exact State.jumpIf_effect (.inr rfl) h
  | inp dst =>
    refine State.conclude_effect ?_ h
    exact .param fun d hd => .noParam (State.takeInput_answers hd)
  | out a =>
    refine State.conclude_effect ?_ h
    refine .param fun x _ => .noParam ?_
    refine (s.fallthrough_answers 1).bind fun n hn => ?_
    obtain ⟨rfl, hpc⟩ := hn
    exact .pure (.emit _ hpc)
  | arb a =>
    refine State.conclude_effect ?_ h
    refine .param fun x _ => .noParam ?_
    refine (alu_answers s _).bind fun r _ => (s.fallthrough_answers 1).bind fun n hn => ?_
    obtain ⟨rfl, hpc⟩ := hn
    exact .pure (.setRb r hpc)
  | hlt =>
    cases h
    exact .inl .halt

/-! What no instruction that takes no fault touches -/

theorem Commits.config_eq {i : Instr} (h : Commits s i t) : t.config = s.config := by
  cases h <;> rfl

theorem Commits.fault_eq {i : Instr} (h : Commits s i t) : t.fault = s.fault := by
  cases h <;> rfl

theorem Commits.status_ne_faulted {i : Instr} (h : Commits s i t) : t.status ≠ .faulted := by
  cases h <;> simp

/-- An instruction stores at most one word, in Addr (20_memory.md R39). -/
theorem Commits.mem_eq_or_write {i : Instr} (h : Commits s i t) :
    t.mem = s.mem ∨ ∃ d v, d ≤ addrMax ∧ t.mem = s.mem.write d v := by
  cases h with
  | store v hi hd hpc => exact .inr ⟨_, v, State.resolve_le hd, rfl⟩
  | take hd hq hpc => exact .inr ⟨_, _, State.resolve_le hd, rfl⟩
  | suspend | emit | jump | setRb | halt => exact .inl rfl

theorem Commits.pc_le {i : Instr} (h : Commits s i t) (hs : s.pc ≤ addrMax) : t.pc ≤ addrMax := by
  cases h with
  | store _ _ _ hpc | take _ _ hpc | emit _ hpc | jump _ _ _ hpc | setRb _ hpc => exact hpc
  | suspend | halt => exact hs

/-! Steps (R62 to R64) -/

/-- The faults a step can take: of the opcode, of a parameter, or one after the parameters (60_exceptions.md R110). -/
inductive StepFault (s : State) : Raise → Prop where
  | opcode (h : decodeOpcode s.config (s.mem.read s.pc) = none) :
    StepFault s ⟨.unknownOpcode, none, (s.mem.read s.pc).toInt⟩
  | param {i : Instr} {e : Raise} (hi : s.fetch = .ok i) (h : FirstFailure s i.params e) :
    StepFault s e
  | late {e : Raise} (h : LateFault s e) : StepFault s e

/-- A fetch fails by the opcode only: four words are never too few (R63, R64). -/
theorem State.fetch_eq_error {e : DecodeError} (h : s.fetch = .error e) :
    decodeOpcode s.config (s.mem.read s.pc) = none ∧ e = .unknownOpcode (s.mem.read s.pc) := by
  have hnone : decodeOpcode s.config (s.mem.read s.pc) = none := by
    refine Option.eq_none_iff_forall_ne_some.mpr fun op hop => ?_
    obtain ⟨i, hi⟩ := State.fetch_of_some hop
    cases hi.symm.trans h
  refine ⟨hnone, ?_⟩
  cases (State.fetch_of_none hnone).symm.trans h
  rfl

/-- Everything a step of a live engine can do (R62 to R64, R72). -/
theorem step_effect_of_live (hl : s.status.live = true) (h : step s = .next t) :
    (∃ i, s.fetch = .ok i ∧ Commits s i t) ∨ ∃ e, StepFault s e ∧ t = s.raise e := by
  rcases step_cases h with ⟨hl', -⟩ | ⟨-, -, ⟨e, he, rfl⟩ | ⟨i, hi, h⟩⟩
  · simp [hl] at hl'
  · obtain ⟨hnone, rfl⟩ := State.fetch_eq_error he
    exact .inr ⟨_, .opcode hnone, rfl⟩
  · rcases exec_effect h with hc | ⟨e, hf | hf, ht⟩
    · exact .inl ⟨i, hi, hc⟩
    · exact .inr ⟨e, .param hi hf, ht⟩
    · exact .inr ⟨e, .late hf, ht⟩

/-- Everything a step can do: nothing in an inert status (R76), else what it does in a live one. -/
theorem step_effect (h : step s = .next t) :
    t = s ∨ (∃ i, s.fetch = .ok i ∧ Commits s i t) ∨ ∃ e, StepFault s e ∧ t = s.raise e := by
  cases hl : s.status.live with
  | false =>
    rw [step_of_inert hl] at h
    cases h
    exact .inl rfl
  | true => exact .inr (step_effect_of_live hl h)

/-- A step of a live engine that leaves a status other than Faulted committed the instruction it fetched. -/
theorem step_commits (hl : s.status.live = true) (h : step s = .next t)
    (hst : t.status ≠ .faulted) : ∃ i, s.fetch = .ok i ∧ Commits s i t := by
  rcases step_effect_of_live hl h with hc | ⟨e, -, rfl⟩
  · exact hc
  · exact absurd rfl hst

/-- A step of a live engine that leaves Faulted is the entry of one of its faults. -/
theorem step_faults (hl : s.status.live = true) (h : step s = .next t)
    (hst : t.status = .faulted) : ∃ e, StepFault s e ∧ t = s.raise e := by
  rcases step_effect_of_live hl h with ⟨i, -, hc⟩ | hf
  · exact absurd hst hc.status_ne_faulted
  · exact hf

/-- With the pc in Addr every step answers (R63). -/
theorem step_answers (hp : s.pc ≤ addrMax) : ∃ t, step s = .next t := by
  cases hl : s.status.live with
  | false => exact ⟨s, step_of_inert hl⟩
  | true =>
    cases hf : s.fetch with
    | error e => exact ⟨_, step_of_fetch_error hl hp hf⟩
    | ok i =>
      rw [step_of_fetch hl hp hf]
      cases i with
      | hlt => exact ⟨_, rfl⟩
      | add | mul | inp | out | jnz | jz | lt | eq | arb => exact s.conclude_answers _

end

end Sys2Proof.Machine
end

section
/-! What instructions leave unchanged (10_state.md, 40_execution_cycle.md R72 to R74). -/

namespace Sys2Proof.Machine

/-- Settles O28: a storing instruction enters a fault, or its destination resolved and it stored there. -/
theorem storingInstructionsFrame : Obligations.StoringInstructionsFrame := by
  intro a b dst i s t hi h
  rcases exec_effect h with hc | ⟨e, -, rfl⟩
  · cases hc with
    | @store _ a' b' dst' d v hi' hd hpc =>
      have hdst : dst' = dst := by grind
      subst hdst
      refine ⟨rfl, rfl, rfl, rfl, fun _ => rfl, fun d' hd' n hn => ?_, fun e he => ?_⟩
      · cases hd.symm.trans hd'
        exact Memory.read_write_of_ne _ _ hn
      · cases hd.symm.trans he
    | jump hi' => rcases hi' with rfl | rfl <;> simp at hi
    | suspend | take | emit | setRb | halt => simp at hi
  · exact ⟨rfl, rfl, rfl, rfl, fun hst => absurd rfl hst, fun _ _ _ _ => rfl, fun _ _ _ => rfl⟩

/-- Settles O29: IN enters a fault, suspends, or takes the front word to its resolved destination. -/
theorem inFrame : Obligations.InFrame := by
  intro dst s t h
  rcases exec_effect h with hc | ⟨e, -, rfl⟩
  · refine ⟨hc.config_eq, ?_⟩
    cases hc with
    | suspend hq =>
      exact ⟨rfl, rfl, fun _ => rfl, fun _ => ⟨rfl, rfl, fun _ => rfl⟩, fun _ _ _ _ => rfl⟩
    | take hd hq hpc =>
      refine ⟨rfl, rfl, fun _ => rfl, fun hst => absurd rfl hst, fun d' hd' n hn => ?_⟩
      cases hd.symm.trans hd'
      exact Memory.read_write_of_ne _ _ hn
    | store _ hi => simp at hi
    | jump hi => simp at hi
  · exact ⟨rfl, rfl, rfl, fun hst => absurd rfl hst, fun _ => ⟨rfl, rfl, fun _ => rfl⟩,
      fun _ _ _ _ => rfl⟩

/-- Settles O30: none of the five stores or takes input, and each commits at most its own register. -/
theorem nonStoringInstructionsFrame : Obligations.NonStoringInstructionsFrame := by
  intro a b i s t hi h
  rcases exec_effect h with hc | ⟨e, -, rfl⟩
  · refine ⟨hc.config_eq, ?_⟩
    cases hc with
    | emit => exact ⟨rfl, fun _ => rfl, fun _ => rfl, fun _ => rfl, fun hout => absurd rfl hout⟩
    | setRb => exact ⟨rfl, fun _ => rfl, fun _ => rfl, fun harb => absurd rfl harb, fun _ => rfl⟩
    | jump | halt => exact ⟨rfl, fun _ => rfl, fun _ => rfl, fun _ => rfl, fun _ => rfl⟩
    | store _ hi' => rcases hi' with rfl | rfl | rfl | rfl <;> simp at hi
    | suspend | take => simp at hi
  · exact ⟨rfl, rfl, fun _ => rfl, fun hst => absurd rfl hst, fun _ => rfl, fun _ => rfl⟩

end Sys2Proof.Machine
end

section
/-! Steps: which of them suspend, halt, fault, and what each changes (10_state.md R17 to R22, 40_execution_cycle.md R75, R76, 60_exceptions.md R106 to R109). -/

namespace Sys2Proof.Machine

/-- Settles O31: the fetch is the decoder over the four words. -/
theorem stepRunsTheDecodedInstruction : Obligations.StepRunsTheDecodedInstruction :=
  fun _ _ rest hl hp h => step_of_fetch hl hp (State.fetch_eq_ok.mpr ⟨rest, h⟩)

/-- Settles O33: both statuses are live, and the step looks at nothing else of the status. -/
theorem waitingStepIsTheRunningStep : Obligations.WaitingStepIsTheRunningStep := fun _ => rfl

/-- Settles O34: the only commit that leaves WaitingForInput is IN's suspension. -/
theorem onlyEmptyInputSuspends : Obligations.OnlyEmptyInputSuspends := by
  intro s t hl h hst
  obtain ⟨i, hi, hc⟩ := step_commits hl h (by simp [hst])
  cases hc with
  | suspend hq => exact ⟨hq, rfl, _, hi⟩
  | store | take | emit | jump | setRb | halt => cases hst

/-- Settles O35: the only commit that leaves Halted is HLT's. -/
theorem onlyHltHalts : Obligations.OnlyHltHalts := by
  intro s t hl h hst
  obtain ⟨i, hi, hc⟩ := step_commits hl h (by simp [hst])
  cases hc with
  | halt => exact ⟨hi, rfl⟩
  | store | suspend | take | emit | jump | setRb => cases hst

/-- Settles O36: a step that leaves Faulted is `State.raise`, which changes the status and the record. -/
theorem faultsArePrecise : Obligations.FaultsArePrecise := by
  intro s t hl h hst
  obtain ⟨e, -, rfl⟩ := step_faults hl h hst
  exact ⟨e.code, e.param, e.value, rfl⟩

/-- The first failure of a list of parameters is the failure of one of them. -/
theorem FirstFailure.exists_failsWith {s : State} {ps : List (ParamIndex × Role × Param)}
    {e : Raise} (h : FirstFailure s ps e) : ∃ q ∈ ps, FailsWith s q.1 q.2.1 q.2.2 e := by
  induction ps with
  | nil => exact h.elim
  | cons q ps ih =>
    rcases h with h | ⟨-, h⟩
    · exact ⟨q, by simp, h⟩
    · obtain ⟨q', hq', hf⟩ := ih h
      exact ⟨q', by simp [hq'], hf⟩

/-- Settles O37, by the fault the step took: of the opcode, of a parameter, or after the parameters. -/
theorem faultRecordsFollowTheTable : Obligations.FaultRecordsFollowTheTable := by
  intro s t r hl h hst hr
  obtain ⟨e, he, rfl⟩ := step_faults hl h hst
  cases hr
  cases he with
  | opcode => exact ⟨rfl, rfl⟩
  | param _ hf =>
    obtain ⟨⟨i, role, p⟩, -, hf⟩ := hf.exists_failsWith
    rcases hf with ⟨-, rfl⟩ | ⟨-, -, -, -, rfl⟩ | ⟨-, hslot, rfl⟩ | ⟨-, -, hneg, rfl⟩ |
      ⟨-, -, hgt, rfl⟩
    · have hdigit := Laws.Encoding.digit_lt p.mode
      exact ⟨Option.some_ne_none i, Int.natCast_nonneg _, by show (p.mode.digit : Int) ≤ 9; omega⟩
    · exact ⟨Option.some_ne_none i, (by decide : (0 : Int) ≤ 1), (by decide : (1 : Int) ≤ 9)⟩
    · exact Int.ofNat_lt.mpr hslot
    · exact ⟨Option.some_ne_none i, hneg⟩
    · exact hgt
  | late hf =>
    cases hf with
    | alu hv hp => exact ⟨rfl, hv, hp⟩
    | fallthrough hn => exact Int.ofNat_lt.mpr hn
    | target hv => exact ⟨Option.some_ne_none 1, hv⟩

/-- Settles O42: an instruction stores at most one word, and a fault or an inert step none. -/
theorem atMostOneWordChanges : Obligations.AtMostOneWordChanges := by
  intro s t n m h hn hm
  rcases step_effect h with rfl | ⟨i, -, hc⟩ | ⟨e, -, rfl⟩
  · exact absurd rfl hn
  · rcases hc.mem_eq_or_write with hmem | ⟨d, v, -, hmem⟩
    · exact absurd (by rw [hmem]) hn
    · have hd (k : Nat) (hk : t.mem.read k ≠ s.mem.read k) : k = d := by
        by_contra hne
        exact hk (by rw [hmem, Memory.read_write_of_ne _ _ hne])
      rw [hd n hn, hd m hm]
  · exact absurd rfl hn

/-- An instruction that leaves Running has moved the pc by its length or to its jump target, and no other has moved it (R74, 43_branch.md R85, R86). -/
theorem Commits.pc_eq {s t : State} {i : Instr} (h : Commits s i t) :
    (t.status ≠ .running → t.pc = s.pc) ∧
    (t.status = .running → t.pc = s.pc + i.opcode.length ∨
      ∃ a target x, (i = .jnz a target ∨ i = .jz a target) ∧
        s.resolve 1 .source target = .ok x ∧ (t.pc : Int) = (s.operand target x).toInt) := by
  cases h with
  | store v hi =>
    refine ⟨fun hst => absurd rfl hst, fun _ => .inl ?_⟩
    rcases hi with rfl | rfl | rfl | rfl <;> rfl
  | @jump _ a target x n hi hx hn =>
    refine ⟨fun hst => absurd rfl hst, fun _ => ?_⟩
    rcases hn with hn | rfl
    · exact .inr ⟨a, target, x, hi, hx, hn.symm⟩
    · left
      rcases hi with rfl | rfl <;> rfl
  | take | emit | setRb => exact ⟨fun hst => absurd rfl hst, fun _ => .inl rfl⟩
  | suspend | halt => exact ⟨fun _ => rfl, nofun⟩

/-- Settles O43, by what the step did: an inert status and a fault leave the pc, and no status Running. -/
theorem pcMovesOnlyOnCompletion : Obligations.PcMovesOnlyOnCompletion := by
  intro s t h
  cases hl : s.status.live with
  | false =>
    rw [step_of_inert hl] at h
    cases h
    exact ⟨fun _ => rfl, fun hst => by simp [hst, Status.live] at hl⟩
  | true =>
    rcases step_effect_of_live hl h with ⟨i, hi, hc⟩ | ⟨e, -, rfl⟩
    · exact ⟨hc.pc_eq.1, fun hst => ⟨i, hi, hc.pc_eq.2 hst⟩⟩
    · exact ⟨fun _ => rfl, nofun⟩

/-- Settles O44: ARB's commit is the only one that writes the relative base. -/
theorem onlyArbWritesTheBase : Obligations.OnlyArbWritesTheBase := by
  intro s t h hrb
  rcases step_effect h with rfl | ⟨i, hi, hc⟩ | ⟨e, -, rfl⟩
  · exact absurd rfl hrb
  · cases hc with
    | setRb => exact ⟨_, hi⟩
    | store | suspend | take | emit | jump | halt => exact absurd rfl hrb
  · exact absurd rfl hrb

/-- Settles O45: the completion of IN is the only commit that touches the input channel. -/
theorem inputIsTakenFromTheFront : Obligations.InputIsTakenFromTheFront := by
  intro s t h
  rcases step_effect h with rfl | ⟨i, hi, hc⟩ | ⟨e, -, rfl⟩
  · exact .inl rfl
  · cases hc with
    | take _ hq => exact .inr ⟨_, _, hq, hi, rfl⟩
    | store | suspend | emit | jump | setRb | halt => exact .inl rfl
  · exact .inl rfl

/-- Settles O46: OUT's commit is the only one that touches the output sequence. -/
theorem outputIsAppendOnly : Obligations.OutputIsAppendOnly := by
  intro s t h
  rcases step_effect h with rfl | ⟨i, hi, hc⟩ | ⟨e, -, rfl⟩
  · exact .inl rfl
  · cases hc with
    | emit v => exact .inr ⟨v, _, rfl, hi, rfl⟩
    | store | suspend | take | jump | setRb | halt => exact .inl rfl
  · exact .inl rfl

end Sys2Proof.Machine
end

section
/-! The class of an instruction word and the fault of the step that fetches it (30_encoding.md R54, R56, R58). -/

namespace Sys2Proof

theorem firstInvalidMode_eq_none {cfg : Config} {w : Word} {roles : List (ParamIndex × Role)} :
    firstInvalidMode cfg w roles = none ↔
      ∀ r ∈ roles, cfg.modeLegal r.2 (modeOf w r.1) = true := by
  induction roles with
  | nil => simp [firstInvalidMode]
  | cons r roles ih => cases h : cfg.modeLegal r.2 (modeOf w r.1) <;> simp [firstInvalidMode, h, ih]

theorem mem_of_firstInvalidMode {cfg : Config} {w : Word} {roles : List (ParamIndex × Role)}
    {k : ParamIndex} (h : firstInvalidMode cfg w roles = some k) : ∃ r ∈ roles, r.1 = k := by
  induction roles with
  | nil => cases h
  | cons r roles ih =>
    rw [firstInvalidMode] at h
    split at h
    · obtain ⟨r', hr', hk⟩ := ih h
      exact ⟨r', by simp [hr'], hk⟩
    · exact ⟨r, by simp, Option.some.inj h⟩

theorem Instr.pairwise_params (i : Instr) : i.params.Pairwise fun q q' => q.1 < q'.1 := by
  cases i <;> simp [Instr.params]

namespace Machine

/-- The opcode and the modes of a fetched instruction are those of the word at the pc. -/
theorem State.modes_of_fetch {s : State} {i : Instr} (h : s.fetch = .ok i) :
    decodeOpcode s.config (s.mem.read s.pc) = some i.opcode ∧
      ∀ q ∈ i.params, q.2.2.mode = modeOf (s.mem.read s.pc) q.1 := by
  obtain ⟨rest, h⟩ := State.fetch_eq_ok.mp h
  obtain ⟨op, hop, h⟩ := decode_cons_eq_ok.mp h
  obtain ⟨rfl, hmodes, -⟩ := decodeParams_eq_ok.mp h
  exact ⟨hop, hmodes⟩

/-- Where the first parameter with an invalid mode is `k`, the first failure is that mode, or the slot or address of an earlier parameter (40_execution_cycle.md R72). -/
theorem firstFailure_of_firstInvalidMode {s : State} {w : Word} {k : ParamIndex}
    {ps : List (ParamIndex × Role × Param)} (hps : ps.Pairwise fun q q' => q.1 < q'.1)
    (hmodes : ∀ q ∈ ps, q.2.2.mode = modeOf w q.1)
    (h : firstInvalidMode s.config w (ps.map fun q => (q.1, q.2.1)) = some k) :
    ∃ e, FirstFailure s ps e ∧ (e = ⟨.invalidMode, some k, (modeDigit w k : Int)⟩ ∨
      ∃ j, e.param = some j ∧ j < k ∧ (e.code = .negativeAddress ∨ e.code = .addressOverflow)) := by
  induction ps with
  | nil => cases h
  | cons q ps ih =>
    obtain ⟨i, role, p⟩ := q
    obtain ⟨hlt, hps⟩ := List.pairwise_cons.mp hps
    have hmode : p.mode = modeOf w i := hmodes (i, role, p) (by simp)
    rw [List.map_cons, firstInvalidMode, ← hmode] at h
    cases hlegal : s.config.modeLegal role p.mode with
    | false =>
      rw [hlegal] at h
      cases h
      have hdigit : p.mode.digit = modeDigit w i := by
        rw [hmode, modeOf_digit, modeDigit, modeWeight_eq_pow]
      exact ⟨_, .inl (State.failsWith_of_not_modeLegal hlegal), .inl (by rw [hdigit])⟩
    | true =>
      rw [hlegal, if_pos rfl] at h
      rcases State.resolvesTo_or_failsWith (s := s) (i := i) (role := role) (p := p) with
        ha | ⟨e, he⟩
      · obtain ⟨e, hf, hkind⟩ := ih hps (fun q hq => hmodes q (by simp [hq])) h
        exact ⟨e, .inr ⟨ha, hf⟩, hkind⟩
      · obtain ⟨r, hr, rfl⟩ := mem_of_firstInvalidMode h
        obtain ⟨q, hq, rfl⟩ := List.mem_map.mp hr
        obtain ⟨hparam, hcode⟩ := he.of_modeLegal hlegal
        exact ⟨e, .inl he, .inr ⟨i, hparam, hlt q hq, hcode⟩⟩

/-- A step that fetches a legal word can only take faults of an address, a slot or the ALU (30_encoding.md R58). -/
theorem StepFault.of_legal {s : State} {e : Raise} {op : Opcode} (he : StepFault s e)
    (hop : decodeOpcode s.config (s.mem.read s.pc) = some op)
    (hlegal : firstInvalidMode s.config (s.mem.read s.pc) op.roles = none) :
    e.code ≠ .unknownOpcode ∧ e.code ≠ .invalidMode := by
  cases he with
  | opcode h => simp [hop] at h
  | @param i _ hi hf =>
    obtain ⟨hop', hmodes⟩ := State.modes_of_fetch hi
    cases hop'.symm.trans hop
    obtain ⟨q, hq, hf⟩ := hf.exists_failsWith
    have hrole : (q.1, q.2.1) ∈ i.opcode.roles := by
      rw [← i.roles_opcode]
      exact List.mem_map.mpr ⟨q, hq, rfl⟩
    have hmode : s.config.modeLegal q.2.1 q.2.2.mode = true := by
      rw [hmodes q hq]
      exact firstInvalidMode_eq_none.mp hlegal _ hrole
    obtain ⟨-, hcode | hcode⟩ := hf.of_modeLegal hmode
    · simp [hcode]
    · simp [hcode]
  | late hf => cases hf <;> simp

/-- Settles O8: the class says whether there is an opcode and which mode is the first invalid one, and the step checks the opcode, then the parameters in order. -/
theorem wordClassDecidesTheFault : Obligations.WordClassDecidesTheFault := by
  intro s hl hp
  rw [classifyWord]
  cases hop : decodeOpcode s.config (s.mem.read s.pc) with
  | none => exact step_of_no_opcode hl hp hop
  | some op =>
    obtain ⟨i, hi⟩ := State.fetch_of_some hop
    obtain ⟨hop', hmodes⟩ := State.modes_of_fetch hi
    cases hop'.symm.trans hop
    cases hinv : firstInvalidMode s.config (s.mem.read s.pc) i.opcode.roles with
    | none =>
      simp only [hinv]
      refine ⟨⟨i, hi, rfl⟩, fun t r h hst hr => ?_⟩
      obtain ⟨e, he, rfl⟩ := step_faults hl h hst
      cases hr
      exact he.of_legal hop hinv
    | some k =>
      simp only [hinv]
      obtain ⟨e, hf, hkind⟩ := firstFailure_of_firstInvalidMode i.pairwise_params hmodes
        (i.roles_opcode ▸ hinv)
      rw [step_of_fetch hl hp hi, firstFailingParameterIsReported i s e hf]
      rcases hkind with rfl | ⟨j, hparam, hlt, hcode⟩
      · exact .inl rfl
      · exact .inr ⟨e, j, rfl, hparam, hlt, hcode⟩

end Machine

end Sys2Proof
end

section
/-! The machine invariant over a step (10_state.md R17, R20, R23). -/

namespace Sys2Proof.Machine

/-- In a state whose record agrees with its status, no record stands where the status is not Faulted (R20). -/
theorem FaultAgrees.fault_eq_none {s : State} (h : FaultAgrees s) (hst : s.status ≠ .faulted) :
    s.fault = none := by
  by_contra hf
  exact hst (h.1.mpr hf)

theorem FaultAgrees.of_no_fault {s : State} (hst : s.status ≠ .faulted) (hf : s.fault = none) :
    FaultAgrees s := by
  simp [FaultAgrees, hst, hf]

/-- The entry of a fault keeps the invariant: the record it leaves names the pc (60_exceptions.md R107). -/
theorem EngineInvariant.raise {s : State} (h : EngineInvariant s) (e : Raise) :
    EngineInvariant (s.raise e) := by
  obtain ⟨hmem, hpc, -⟩ := h
  exact ⟨hmem, hpc, by simp [FaultAgrees]⟩

/-- What an instruction leaves that takes no fault keeps the invariant. -/
theorem EngineInvariant.commits {s t : State} {i : Instr} (h : EngineInvariant s)
    (hl : s.status.live = true) (hc : Commits s i t) : EngineInvariant t := by
  obtain ⟨hmem, hpc, hfault⟩ := h
  have hst : s.status ≠ .faulted := by
    intro hst
    simp [hst, Status.live] at hl
  refine ⟨?_, hc.pc_le hpc,
    .of_no_fault hc.status_ne_faulted (hc.fault_eq.trans (hfault.fault_eq_none hst))⟩
  rcases hc.mem_eq_or_write with h | ⟨d, v, hd, h⟩
  · rwa [h]
  · rw [h]
    exact Memory.wf_write hmem hd v

/-- Settles O38: an inert step changes nothing, and a live one enters a fault or commits. -/
theorem stepKeepsTheInvariant : Obligations.StepKeepsTheInvariant := by
  intro s t hs h
  cases hl : s.status.live with
  | false =>
    rw [step_of_inert hl] at h
    cases h
    exact hs
  | true =>
    rcases step_effect_of_live hl h with ⟨i, -, hc⟩ | ⟨e, -, rfl⟩
    · exact hs.commits hl hc
    · exact hs.raise e

/-- Settles O41: the invariant has the pc in Addr. -/
theorem stepAlwaysAnswers : Obligations.StepAlwaysAnswers :=
  fun _ ⟨_, hpc, _⟩ => step_answers hpc

end Sys2Proof.Machine
end

section
/-! RUN: its loop by equations, and a run that ends by induction over its steps (40_execution_cycle.md R77, R78). -/

namespace Sys2Proof.Machine

/-! The loop of R77 -/

theorem Status.live_running : Status.running.live = true := rfl

section
variable {s t : State}

theorem runFor_of_inert (hl : s.status.live = false) (k : Nat) : runFor k s = s.report := by
  simp [runFor, hl]

theorem runFor_zero (hl : s.status.live = true) : runFor 0 s = .unfinished s := by
  simp [runFor, hl, runLoop]

/-- After a step to a Running state the run goes on from there. -/
theorem runFor_succ_of_running (hl : s.status.live = true) (h : step s = .next t)
    (ht : t.status = .running) (k : Nat) : runFor (k + 1) s = runFor k t := by
  simp [runFor, hl, runLoop, h, ht, Status.live_running]

/-- A step to a state that is not Running is the last. -/
theorem runFor_succ_of_stopped (hl : s.status.live = true) (h : step s = .next t)
    (ht : t.status ≠ .running) (k : Nat) : runFor (k + 1) s = t.report := by
  simp [runFor, hl, runLoop, h, ht]

/-- Where the step does not answer, the run is stuck. -/
theorem runFor_succ_of_no_answer (hl : s.status.live = true) (h : ∀ u, step s ≠ .next u) (k : Nat) :
    runFor (k + 1) s = .stuck s := by
  cases hs : step s with
  | next u => exact absurd hs (h u)
  | fault r => simp [runFor, hl, runLoop, hs]
  | refused r => simp [runFor, hl, runLoop, hs]

theorem State.report_inj : s.report = t.report ↔ s = t :=
  ⟨fun h => (Progress.completed.inj h).2, congrArg _⟩

end

/-- Induction over a RUN that answers: it answers at once in an inert status, or by its last step, or goes on after a step to a Running state. -/
theorem runFor_completed_induction {reply : Reply} {t : State} {P : Nat → State → Prop}
    (inert : ∀ k, t.status.live = false → reply = .status t.status t.fault → P k t)
    (last : ∀ k s, s.status.live = true → step s = .next t → t.status ≠ .running →
      reply = .status t.status t.fault → P (k + 1) s)
    (more : ∀ k s u, s.status.live = true → step s = .next u → u.status = .running →
      runFor k u = .completed reply t → P k u → P (k + 1) s)
    {k : Nat} {s : State} (h : runFor k s = .completed reply t) : P k s := by
  induction k generalizing s with
  | zero =>
    cases hl : s.status.live with
    | false =>
      rw [runFor_of_inert hl] at h
      cases h
      exact inert 0 hl rfl
    | true =>
      rw [runFor_zero hl] at h
      cases h
  | succ k ih =>
    cases hl : s.status.live with
    | false =>
      rw [runFor_of_inert hl] at h
      cases h
      exact inert (k + 1) hl rfl
    | true =>
      by_cases hs : ∃ u, step s = .next u
      · obtain ⟨u, hu⟩ := hs
        by_cases hst : u.status = .running
        · rw [runFor_succ_of_running hl hu hst] at h
          exact more k s u hl hu hst h (ih h)
        · rw [runFor_succ_of_stopped hl hu hst] at h
          cases h
          exact last k s hl hu hst rfl
      · rw [runFor_succ_of_no_answer hl (not_exists.mp hs)] at h
        cases h

/-- A RUN that answers has ended, and it answers the status and the record of the state it leaves (46_host_interface.md R95). -/
theorem runFor_completed {k : Nat} {s t : State} {reply : Reply}
    (h : runFor k s = .completed reply t) : RunEnds s t := by
  have hreply : reply = .status t.status t.fault :=
    runFor_completed_induction (P := fun _ _ => reply = .status t.status t.fault)
      (fun _ _ hr => hr) (fun _ _ _ _ _ hr => hr) (fun _ _ _ _ _ _ _ hr => hr) h
  exact ⟨k, by rw [h, hreply]; rfl⟩

/-- Induction over a RUN that ends. -/
theorem RunEnds.induction {t : State} {P : State → Prop} (inert : t.status.live = false → P t)
    (last : ∀ s, s.status.live = true → step s = .next t → t.status ≠ .running → P s)
    (more : ∀ s u, s.status.live = true → step s = .next u → u.status = .running → P u → P s)
    {s : State} (h : RunEnds s t) : P s := by
  obtain ⟨k, h⟩ := h
  exact runFor_completed_induction (P := fun _ s => P s) (fun _ hl _ => inert hl)
    (fun _ s hl hs hst _ => last s hl hs hst) (fun _ s u hl hu hst _ ih => more s u hl hu hst ih) h

/-- What every step keeps, every run that ends keeps. -/
theorem RunEnds.keeps {P : State → Prop} (hstep : ∀ s t, P s → step s = .next t → P t) {s t : State}
    (h : RunEnds s t) : P s → P t :=
  h.induction (P := fun s => P s → P t) (fun _ ht => ht) (fun s _ ht _ hs => hstep s t hs ht)
    fun s u _ hu _ ih hs => ih (hstep s u hs hu)

theorem runEnds_of_inert {s t : State} (hl : s.status.live = false) : RunEnds s t ↔ t = s := by
  simp only [RunEnds, runFor_of_inert hl, State.report_inj, exists_const, eq_comm]

/-- A RUN of a live state ends by its first step, or as the RUN of the Running state that step leaves. -/
theorem runEnds_of_live {s t : State} (hl : s.status.live = true) :
    RunEnds s t ↔ ∃ u, step s = .next u ∧
      ((u.status ≠ .running ∧ t = u) ∨ (u.status = .running ∧ RunEnds u t)) := by
  constructor
  · rintro ⟨k, h⟩
    refine runFor_completed_induction (P := fun _ s => s.status.live = true →
      ∃ u, step s = .next u ∧ ((u.status ≠ .running ∧ t = u) ∨ (u.status = .running ∧ RunEnds u t))) ?_ ?_ ?_ h hl
    · intro _ hl' _ hl
      simp [hl'] at hl
    · exact fun _ s _ ht hst _ _ => ⟨t, ht, .inl ⟨hst, rfl⟩⟩
    · exact fun _ s u _ hu hst hrun _ _ => ⟨u, hu, .inr ⟨hst, runFor_completed hrun⟩⟩
  · rintro ⟨u, hu, ⟨hst, rfl⟩ | ⟨hst, k, h⟩⟩
    · exact ⟨1, runFor_succ_of_stopped hl hu hst 0⟩
    · exact ⟨k + 1, (runFor_succ_of_running hl hu hst k).trans h⟩

/-- Settles O52: the two cases of the loop. -/
theorem runIsThePostTestLoop : Obligations.RunIsThePostTestLoop :=
  fun _ _ => ⟨runEnds_of_inert, runEnds_of_live⟩

/-- Settles O53, by induction over the run. -/
theorem moreStepsKeepTheAnswer : Obligations.MoreStepsKeepTheAnswer := by
  intro k n s t reply h
  refine runFor_completed_induction (P := fun k s => runFor (k + n) s = .completed reply t)
    (fun k hl hr => ?_) (fun k s hl ht hst hr => ?_) (fun k s u hl hu hst _ ih => ?_) h
  · rw [runFor_of_inert hl, hr]
    rfl
  · rw [Nat.add_right_comm, runFor_succ_of_stopped hl ht hst, hr]
    rfl
  · rw [Nat.add_right_comm, runFor_succ_of_running hl hu hst, ih]

/-- Two RUNs of one state leave the same state: the one allowed fewer steps answers what the other does. -/
theorem RunEnds.unique {s t u : State} (ht : RunEnds s t) (hu : RunEnds s u) : t = u := by
  obtain ⟨k, hk⟩ := ht
  obtain ⟨n, hn⟩ := hu
  have hk' := moreStepsKeepTheAnswer k n s t _ hk
  have hn' := moreStepsKeepTheAnswer n k s u _ hn
  rw [Nat.add_comm, hk'] at hn'
  exact (Progress.completed.inj hn').2

/-- A run that has ended does not leave Running. -/
theorem RunEnds.status_ne_running {s t : State} (h : RunEnds s t) : t.status ≠ .running := by
  refine h.induction (P := fun _ => t.status ≠ .running) (fun hl hst => ?_) (fun _ _ _ hst => hst)
    fun _ _ _ _ _ ih => ih
  simp [hst, Status.live] at hl

/-- A RUN from a state that meets the invariant ends or is still running: it is never stuck. -/
theorem runFor_of_invariant {s : State} (hs : EngineInvariant s) (k : Nat) :
    (∃ t, runFor k s = .unfinished t) ∨ ∃ t : State, runFor k s = t.report := by
  induction k generalizing s with
  | zero =>
    cases hl : s.status.live with
    | false => exact .inr ⟨s, runFor_of_inert hl 0⟩
    | true => exact .inl ⟨s, runFor_zero hl⟩
  | succ k ih =>
    cases hl : s.status.live with
    | false => exact .inr ⟨s, runFor_of_inert hl _⟩
    | true =>
      obtain ⟨u, hu⟩ := stepAlwaysAnswers s hs
      by_cases hst : u.status = .running
      · rw [runFor_succ_of_running hl hu hst]
        exact ih (stepKeepsTheInvariant s u hs hu)
      · exact .inr ⟨u, runFor_succ_of_stopped hl hu hst k⟩

/-- Settles O54: under the invariant a run that is not always unfinished ends, in one state, and not in Running. -/
theorem runEndsInOneOfFourWays : Obligations.RunEndsInOneOfFourWays := by
  intro s hs
  refine ⟨⟨?_, fun h => ?_⟩, fun t u => RunEnds.unique, fun t ht => ?_⟩
  · rintro ⟨t, k, hk⟩ hnever
    obtain ⟨u, hu⟩ := hnever k
    cases hk.symm.trans hu
  · obtain ⟨k, hk⟩ := not_forall.mp h
    rcases runFor_of_invariant hs k with hu | ⟨t, ht⟩
    · exact absurd hu hk
    · exact ⟨t, k, ht⟩
  · have hst := ht.status_ne_running
    cases h : t.status with
    | running => exact absurd h hst
    | waitingForInput => exact .inr (.inl rfl)
    | halted => exact .inl rfl
    | faulted => exact .inr (.inr rfl)

/-- A Running state that is its own next state is still there after any number of steps. -/
theorem runFor_of_self_loop {s : State} (hst : s.status = .running) (h : step s = .next s)
    (k : Nat) : runFor k s = .unfinished s := by
  have hl : s.status.live = true := by rw [hst]; rfl
  induction k with
  | zero => exact runFor_zero hl
  | succ k ih => rw [runFor_succ_of_running hl h hst, ih]

/-- Settles O55: a taken jump to the pc leaves a Running state as it is. -/
theorem selfLoopNeverEnds : Obligations.SelfLoopNeverEnds := by
  refine ⟨fun s hst h k => ⟨s, runFor_of_self_loop hst h k⟩, ?_⟩
  intro s a target x y hst hp hi hx hy hne htarget k
  refine ⟨s, runFor_of_self_loop hst ?_ k⟩
  have htaken := State.jumpIf_of_taken hx hy (isNonzero_eq_true.mpr hne)
  rw [step_of_fetch (by rw [hst]; rfl) hp hi, exec_jnz, htaken.1 (by omega), htarget,
    Int.toNat_natCast, ← hst]

end Sys2Proof.Machine
end

section
/-! The host's commands (46_host_interface.md R92 to R102). -/

namespace Sys2Proof.Machine

/-- MEM_READ of an address that is not negative answers: no word's value is above `2^63 - 1` (R100). -/
theorem memReadCommand_of_nonneg {a : Word} (h : 0 ≤ a.toInt) (s : State) :
    memReadCommand a s = .completed (.word (s.mem.read a.toInt.toNat)) s := by
  rw [memReadCommand, memRead_of_le h (Word.toInt_le a)]

theorem memReadCommand_of_neg {a : Word} (h : a.toInt < 0) (s : State) :
    memReadCommand a s = .completed (.negativeAddress a) s := by
  rw [memReadCommand, memRead_of_error (checkAddress_of_neg h)]

theorem memWriteCommand_of_nonneg {a : Word} (h : 0 ≤ a.toInt) (v : Word) (s : State) :
    memWriteCommand a v s = .completed .done { s with mem := s.mem.write a.toInt.toNat v } := by
  rw [memWriteCommand, memWrite_of_le h (Word.toInt_le a)]

theorem memWriteCommand_of_neg {a : Word} (h : a.toInt < 0) (v : Word) (s : State) :
    memWriteCommand a v s = .completed (.negativeAddress a) s := by
  rw [memWriteCommand, memWrite_of_error (checkAddress_of_neg h)]

/-- Settles O50, by the sign of the address. -/
theorem hostMemoryPort : Obligations.HostMemoryPort :=
  fun _ _ v s => ⟨fun h => ⟨memReadCommand_of_nonneg h s, memWriteCommand_of_nonneg h v s⟩,
    fun h => ⟨memReadCommand_of_neg h s, memWriteCommand_of_neg h v s⟩⟩

/-- Settles O51: each queue command is its change of the state. -/
theorem queueCommands : Obligations.QueueCommands := fun _ _ _ _ => ⟨rfl, rfl, rfl, rfl⟩

theorem live_eq_false_of_stopped {s : State} (h : s.status = .halted ∨ s.status = .faulted) :
    s.status.live = false := by
  rcases h with h | h <;> rw [h] <;> rfl

/-- Settles O56: RESUME is defined as the push and the RUN, and a RUN of a stopped engine answers at once. -/
theorem resumeIsPushThenRun : Obligations.ResumeIsPushThenRun :=
  fun fuel vs s => ⟨rfl, fun h =>
    runFor_of_inert (s := s.pushInputs vs) (live_eq_false_of_stopped h) fuel⟩

/-- STEP answers where the step does, with the state the step leaves (R97). -/
theorem stepCommand_eq_completed {s t : State} {reply : Reply} :
    stepCommand s = .completed reply t ↔ step s = .next t ∧ reply = .status t.status t.fault := by
  unfold stepCommand
  cases step s with
  | next u =>
    simp only [State.report, Progress.completed.injEq, Host.Outcome.next.injEq]
    constructor
    · rintro ⟨rfl, rfl⟩
      exact ⟨rfl, rfl⟩
    · rintro ⟨rfl, rfl⟩
      exact ⟨rfl, rfl⟩
  | fault r => simp
  | refused r => simp

/-- What a command that answers can leave: a constructed engine, the end of a RUN or of one step, or a change of a queue or of one memory word. -/
inductive CommandLeaves (c : Command) (s : State) : State → Prop where
  | construct (image : Image) (hc : c = .construct image) :
    CommandLeaves c s (State.construct s.config image)
  | resume {t : State} (vs : List Word) (h : RunEnds (s.pushInputs vs) t) : CommandLeaves c s t
  | run {t : State} (h : RunEnds s t) : CommandLeaves c s t
  | step {t : State} (h : step s = .next t) : CommandLeaves c s t
  | push (vs : List Word) : CommandLeaves c s (s.pushInputs vs)
  | drain : CommandLeaves c s s.drained
  | same : CommandLeaves c s s
  | write (a : Nat) (v : Word) (ha : a ≤ addrMax) :
    CommandLeaves c s { s with mem := s.mem.write a v }

theorem command_leaves {fuel : Nat} {c : Command} {s t : State} {reply : Reply}
    (h : command fuel c s = .completed reply t) : CommandLeaves c s t := by
  cases c with
  | construct image => cases h; exact .construct image rfl
  | resume vs => exact .resume vs (runFor_completed h)
  | run => exact .run (runFor_completed h)
  | step => exact .step (stepCommand_eq_completed.mp h).1
  | pushInput v => cases h; exact .push [v]
  | pushInputs vs => cases h; exact .push vs
  | drainOutput => cases h; exact .drain
  | peekOutput | readStatus => cases h; exact .same
  | memRead a =>
    rcases lt_or_ge a.toInt 0 with ha | ha
    · cases (memReadCommand_of_neg ha s).symm.trans h
      exact .same
    · cases (memReadCommand_of_nonneg ha s).symm.trans h
      exact .same
  | memWrite a v =>
    rcases lt_or_ge a.toInt 0 with ha | ha
    · cases (memWriteCommand_of_neg ha v s).symm.trans h
      exact .same
    · cases (memWriteCommand_of_nonneg ha v s).symm.trans h
      have hle := Word.toInt_le a
      exact .write a.toInt.toNat v (by omega)

/-- Settles O32: the runs and the steps of a stopped engine end where it stands, and no other command touches those fields. -/
theorem stoppedEngineIsInert : Obligations.StoppedEngineIsInert := by
  intro s hst
  have hl := live_eq_false_of_stopped hst
  have hstep : step s = .next s := step_of_inert hl
  refine ⟨hstep, fun fuel => stepCommand_eq_completed.mpr ⟨hstep, rfl⟩, ?_⟩
  intro fuel c t reply h hc
  cases command_leaves h with
  | construct image himage => exact absurd himage (hc image)
  | resume vs h =>
    cases (runEnds_of_inert (s := s.pushInputs vs) hl).mp h
    exact ⟨rfl, rfl, rfl, rfl⟩
  | run h =>
    cases (runEnds_of_inert hl).mp h
    exact ⟨rfl, rfl, rfl, rfl⟩
  | step h =>
    cases hstep.symm.trans h
    exact ⟨rfl, rfl, rfl, rfl⟩
  | push | drain | same | write => exact ⟨rfl, rfl, rfl, rfl⟩

/-! What steps and commands keep -/

theorem step_config {s t : State} (h : step s = .next t) : t.config = s.config := by
  rcases step_effect h with rfl | ⟨i, -, hc⟩ | ⟨e, -, rfl⟩
  · rfl
  · exact hc.config_eq
  · rfl

theorem RunEnds.config_eq {s t : State} (h : RunEnds s t) : t.config = s.config :=
  h.keeps (P := fun u => u.config = s.config) (fun _ _ hu h => (step_config h).trans hu) rfl

/-- Settles O47: every commit and every command writes other fields only, and CONSTRUCT takes the parameters over. -/
theorem parametersAreFixed : Obligations.ParametersAreFixed := by
  refine ⟨fun s t => step_config, fun fuel c s t reply h => ?_⟩
  cases command_leaves h with
  | resume vs h => exact h.config_eq
  | run h => exact h.config_eq
  | step h => exact step_config h
  | construct | push | drain | same | write => rfl

/-- A constructed engine meets the invariant: its image fits in Addr (70_reset_and_hazards.md R121). -/
theorem EngineInvariant.construct (cfg : Config) (image : Image) :
    EngineInvariant (State.construct cfg image) :=
  ⟨Memory.wf_ofImage 0 image.val (by simpa using image.property), Nat.zero_le _,
    .of_no_fault nofun rfl⟩

theorem EngineInvariant.runEnds {s t : State} (hs : EngineInvariant s) (h : RunEnds s t) :
    EngineInvariant t :=
  h.keeps stepKeepsTheInvariant hs

/-- Settles O39: the invariant does not read the queues, a run keeps what a step keeps, and MEM_WRITE keeps the canonical memory. -/
theorem commandsKeepTheInvariant : Obligations.CommandsKeepTheInvariant := by
  refine ⟨EngineInvariant.construct, fun fuel c s t reply hs h => ?_⟩
  cases command_leaves h with
  | construct image => exact .construct s.config image
  | resume vs h => exact EngineInvariant.runEnds (s := s.pushInputs vs) hs h
  | run h => exact hs.runEnds h
  | step h => exact stepKeepsTheInvariant s t hs h
  | push | drain | same => exact hs
  | write a v ha =>
    obtain ⟨hmem, hrest⟩ := hs
    exact ⟨Memory.wf_write hmem ha v, hrest⟩

/-- Settles O40: reset is the construction from the empty image. -/
theorem resetMeetsTheInvariant : Obligations.ResetMeetsTheInvariant :=
  EngineInvariant.construct Config.default ⟨[], by decide⟩

end Sys2Proof.Machine
end

section
/-! Output already drained and input supplied early: changes of the queues that a step carries along (46_host_interface.md R103, R104). -/

namespace Sys2Proof.Machine

/-- A change of the queues alone that can as well be made after a commit or a fault as before it. -/
structure QueueChange (g : State → State) : Prop where
  config : ∀ s, (g s).config = s.config
  mem : ∀ s, (g s).mem = s.mem
  pc : ∀ s, (g s).pc = s.pc
  rb : ∀ s, (g s).rb = s.rb
  status : ∀ s, (g s).status = s.status
  store : ∀ s d v, g (s.store d v) = (g s).store d v
  setRb : ∀ s v, g (s.setRb v) = (g s).setRb v
  emit : ∀ s v, g (s.emit v) = (g s).emit v
  retire : ∀ s n, g (s.retire n) = (g s).retire n
  halt : ∀ s, g s.halt = (g s).halt
  raise : ∀ s e, g (s.raise e) = (g s).raise e

namespace QueueChange

variable {g : State → State} (hg : QueueChange g)
include hg

theorem slot_eq (s : State) (i : ParamIndex) : (g s).slot i = s.slot i := by
  rw [State.slot, State.slot, hg.pc]

theorem effectiveAddress_eq (s : State) (i : ParamIndex) (p : Param) :
    (g s).effectiveAddress i p = s.effectiveAddress i p := by
  cases hm : p.mode <;> simp only [State.effectiveAddress, hm, hg.slot_eq, hg.rb]

theorem resolve_eq (s : State) (i : ParamIndex) (role : Role) (p : Param) :
    (g s).resolve i role p = s.resolve i role p := by
  rw [State.resolve, State.resolve, hg.config, hg.slot_eq, hg.effectiveAddress_eq]

theorem operand_eq (s : State) (p : Param) (a : Nat) : (g s).operand p a = s.operand p a := by
  simp only [State.operand, hg.mem]

theorem fallthrough_eq (s : State) (n : Nat) : (g s).fallthrough n = s.fallthrough n := by
  simp only [State.fallthrough, hg.pc]

theorem jumpNext_eq (s : State) (taken : Bool) (w : Word) :
    (g s).jumpNext taken w = s.jumpNext taken w := by
  simp only [State.jumpNext, hg.fallthrough_eq]

theorem fetch_eq (s : State) : (g s).fetch = s.fetch := by
  simp only [State.fetch, State.fetchWords, hg.config, hg.mem, hg.pc]

theorem fetchFailed_eq (s : State) (e : DecodeError) :
    g (s.fetchFailed e) = (g s).fetchFailed e := by
  cases e <;> simp only [State.fetchFailed, hg.raise, hg.mem, hg.pc]

variable {s t : State}

theorem conclude_next {x : Except Raise State} (h : s.conclude x = .next t) :
    (g s).conclude (g <$> x) = .next (g t) := by
  cases x with
  | ok u => cases h; rfl
  | error e => cases h; exact congrArg _ (hg.raise s e).symm

theorem binaryStore_next {f : Word → Word → Except Raise Word} {a b dst : Param}
    (h : s.binaryStore f a b dst = .next t) : (g s).binaryStore f a b dst = .next (g t) := by
  simpa only [State.binaryStore, map_bind, map_pure, hg.resolve_eq, hg.operand_eq,
    hg.fallthrough_eq, hg.store, hg.retire] using hg.conclude_next h

theorem jumpIf_next {cond : Word → Bool} {a target : Param} (h : s.jumpIf cond a target = .next t) :
    (g s).jumpIf cond a target = .next (g t) := by
  simpa only [State.jumpIf, map_bind, map_pure, hg.resolve_eq, hg.operand_eq, hg.jumpNext_eq,
    hg.retire] using hg.conclude_next h

theorem execOut_next {a : Param} (h : execOut a s = .next t) : execOut a (g s) = .next (g t) := by
  simpa only [execOut, map_bind, map_pure, hg.resolve_eq, hg.operand_eq,
    hg.fallthrough_eq, hg.emit, hg.retire] using hg.conclude_next h

theorem execArb_next {a : Param} (h : execArb a s = .next t) : execArb a (g s) = .next (g t) := by
  simpa only [execArb, map_bind, map_pure, hg.resolve_eq, hg.operand_eq, hg.config, hg.rb,
    hg.fallthrough_eq, hg.setRb, hg.retire] using hg.conclude_next h

/-- IN carries the change along wherever its look at the input channel does. -/
theorem execIn_next {dst : Param} (h : execIn dst s = .next t)
    (hin : ∀ d, s.resolve 0 .destination dst = .ok d → (g s).takeInput d = g <$> s.takeInput d) :
    execIn dst (g s) = .next (g t) := by
  rw [execIn, hg.resolve_eq]
  have h' := hg.conclude_next h
  cases hd : s.resolve 0 .destination dst with
  | error e => simpa [hd] using h'
  | ok d => simpa [hd, hin d hd] using h'

theorem exec_next {i : Instr} (h : exec i s = .next t)
    (hin : ∀ dst d, i = .inp dst → s.resolve 0 .destination dst = .ok d →
      (g s).takeInput d = g <$> s.takeInput d) : exec i (g s) = .next (g t) := by
  cases i with
  | add | mul | lt | eq =>
    simp only [exec_add, exec_mul, exec_lt, exec_eq, hg.config] at h ⊢
    exact hg.binaryStore_next h
  | jnz | jz => exact hg.jumpIf_next h
  | inp dst => exact hg.execIn_next h fun d => hin dst d rfl
  | out => exact hg.execOut_next h
  | arb => exact hg.execArb_next h
  | hlt => cases h; exact congrArg _ (hg.halt s).symm

/-- A step carries the change along, wherever an IN it fetches does. -/
theorem step_next (h : step s = .next t)
    (hin : ∀ dst d, s.fetch = .ok (.inp dst) → s.resolve 0 .destination dst = .ok d →
      (g s).takeInput d = g <$> s.takeInput d) : step (g s) = .next (g t) := by
  rcases step_cases h with ⟨hl, rfl⟩ | ⟨hl, hp, ⟨e, he, rfl⟩ | ⟨i, hi, h⟩⟩
  · exact step_of_inert (by rwa [hg.status])
  · rw [step_of_fetch_error (by rwa [hg.status]) (by rwa [hg.pc]) (by rwa [hg.fetch_eq]),
      hg.fetchFailed_eq]
  · rw [step_of_fetch (by rwa [hg.status]) (by rwa [hg.pc]) (by rwa [hg.fetch_eq])]
    exact hg.exec_next h fun dst d hd => hin dst d (hd ▸ hi)

end QueueChange

/-! Output (R104) -/

/-- The state with further output before what it has. -/
def State.prependOutput (vs : List Word) (s : State) : State := { s with oq := vs ++ s.oq }

theorem State.prependOutput_drained (s : State) : s.drained.prependOutput s.oq = s := by
  simp [State.prependOutput, State.drained]

theorem queueChange_prependOutput (vs : List Word) : QueueChange (State.prependOutput vs) where
  config _ := rfl
  mem _ := rfl
  pc _ := rfl
  rb _ := rfl
  status _ := rfl
  store _ _ _ := rfl
  setRb _ _ := rfl
  emit s v := by simp [State.prependOutput, State.emit]
  retire _ _ := rfl
  halt _ := rfl
  raise _ _ := rfl

theorem State.takeInput_prependOutput (vs : List Word) (s : State) (d : Nat) :
    (s.prependOutput vs).takeInput d = State.prependOutput vs <$> s.takeInput d := by
  have hq : (s.prependOutput vs).iq = s.iq := rfl
  rw [State.takeInput, State.takeInput, hq, (queueChange_prependOutput vs).fallthrough_eq]
  cases s.iq with
  | nil => rfl
  | cons v rest => cases s.fallthrough 1 <;> rfl

/-- Settles O48: a state is its drained state with the output put back, and a step carries that along. -/
theorem drainingDoesNotAffectSteps : Obligations.DrainingDoesNotAffectSteps := by
  intro s t h
  obtain ⟨u, hu⟩ : ∃ u, step s.drained = .next u := by
    rcases step_cases h with ⟨hl, -⟩ | ⟨-, hp, -⟩
    · exact ⟨_, step_of_inert (s := s.drained) hl⟩
    · exact step_answers (s := s.drained) hp
  have hput := (queueChange_prependOutput s.oq).step_next hu fun _ d _ _ =>
    State.takeInput_prependOutput s.oq s.drained d
  rw [State.prependOutput_drained, h] at hput
  cases hput
  exact ⟨u.oq, rfl, hu⟩

/-! Input (R103) -/

theorem queueChange_pushInputs (vs : List Word) : QueueChange fun s => s.pushInputs vs where
  config _ := rfl
  mem _ := rfl
  pc _ := rfl
  rb _ := rfl
  status _ := rfl
  store _ _ _ := rfl
  setRb _ _ := rfl
  emit _ _ := rfl
  retire _ _ := rfl
  halt _ := rfl
  raise _ _ := rfl

/-- A push behind a front word is not seen by the IN that takes it. -/
theorem State.takeInput_pushInputs {s : State} (hq : s.iq ≠ []) (vs : List Word) (d : Nat) :
    (s.pushInputs vs).takeInput d = (fun t : State => t.pushInputs vs) <$> s.takeInput d := by
  obtain ⟨v, rest, hq⟩ := List.exists_cons_of_ne_nil hq
  have hq' : (s.pushInputs vs).iq = v :: (rest ++ vs) := by simp [hq]
  rw [State.takeInput, State.takeInput, hq', hq, (queueChange_pushInputs vs).fallthrough_eq]
  cases s.fallthrough 1 <;> rfl

/-- A step that does not suspend does the same with more input behind, which it leaves there. -/
theorem step_pushInputs {s t : State} (h : step s = .next t) (hst : t.status ≠ .waitingForInput)
    (vs : List Word) : step (s.pushInputs vs) = .next (t.pushInputs vs) := by
  rcases step_cases h with ⟨hl, rfl⟩ | ⟨-, -, hlive⟩
  · exact step_of_inert (s := t.pushInputs vs) hl
  · refine (queueChange_pushInputs vs).step_next h fun dst d hi hd => ?_
    refine State.takeInput_pushInputs (fun hq => hst ?_) vs d
    rcases hlive with ⟨e, he, -⟩ | ⟨i, hi', h⟩
    · cases hi.symm.trans he
    · cases hi.symm.trans hi'
      rw [exec_inp, execIn_of_empty (State.resolve_ok hd) hq] at h
      cases h
      rfl

/-- A step from WaitingForInput is the step from the live status before it (40_execution_cycle.md R75). -/
theorem step_suspend {s : State} (hl : s.status.live = true) : step s.suspend = step s := by
  obtain ⟨config, mem, pc, rb, status, fault, iq, oq⟩ := s
  cases status with
  | running | waitingForInput => rfl
  | halted | faulted => cases hl

/-- Live states with the same step have the same ends of a RUN. -/
theorem runEnds_congr {s s' t : State} (hl : s.status.live = true) (hl' : s'.status.live = true)
    (h : step s = step s') : RunEnds s t ↔ RunEnds s' t := by
  rw [runEnds_of_live hl, runEnds_of_live hl', h]

/-- Settles O57: the steps before the suspension carry the push along, and the suspended step is taken again with it. -/
theorem earlyInputEqualsInputOnDemand : Obligations.EarlyInputEqualsInputOnDemand := by
  intro s u t v r hsu hu hut
  refine hsu.induction (P := fun s => RunEnds (s.pushInputs (v :: r)) t) (fun hl => ?_)
    (fun s hl hstep _ => ?_) fun s s' hl hstep hst ih => ?_
  · simp [hu, Status.live] at hl
  · obtain ⟨-, rfl, -⟩ := onlyEmptyInputSuspends s u hl hstep hu
    exact (runEnds_congr (s := (s.pushInputs (v :: r)).suspend) (s' := s.pushInputs (v :: r)) rfl hl
      (step_suspend hl)).mp hut
  · have hstep' := step_pushInputs hstep (by simp [hst]) (v :: r)
    exact (runEnds_of_live (s := s.pushInputs (v :: r)) hl).mpr ⟨_, hstep', .inr ⟨hst, ih⟩⟩

end Sys2Proof.Machine
end

section
/-! Several engines (46_host_interface.md R92, R105). -/

namespace Sys2Proof.Machine

theorem Engines.issue_of_none {es : Engines} {k : Nat} (h : es.engine k = none) (fuel : Nat)
    (c : Command) : es.issue fuel k c = none := by
  rw [Engines.issue, h]

theorem Engines.engine_length (es : Engines) : es.engine es.length = none := by
  simp [Engines.engine]

/-- Settles O58: the command's engine is replaced under its handle. -/
theorem commandTouchesOneEngine : Obligations.CommandTouchesOneEngine := by
  intro es es' fuel k c reply h
  obtain ⟨s, t, hs, hc, rfl⟩ := Engines.issue_eq_some.mp h
  have hk := Engines.lt_length hs
  refine ⟨List.length_set, fun j hj => ?_, s, t, hs, ?_, hc⟩
  · rw [Engines.engine_set _ _ _ _ hk, if_neg hj]
  · rw [Engines.engine_set _ _ _ _ hk, if_pos rfl]

/-- Settles O59: a discard empties one handle, and a construction takes the one after the last. -/
theorem discardTouchesOneEngine : Obligations.DiscardTouchesOneEngine := by
  intro es k
  have hnone : (es.discard k).engine k = none := by simp
  refine ⟨hnone, fun j hj => by simp [hj], Engines.issue_of_none hnone, fun hk cfg image => ?_⟩
  have hlen : (es.discard k).length = es.length := List.length_set
  rw [Engines.engine_construct, if_neg (by omega), hnone]

/-- Settles O60: the new handle is the one after the last, which no engine had. -/
theorem constructTouchesNoOtherEngine : Obligations.ConstructTouchesNoOtherEngine := by
  intro es cfg image
  refine ⟨fun j s h => ?_, es.engine_length, by simp⟩
  rw [Engines.engine_construct, if_neg (Engines.lt_length h).ne, h]

end Sys2Proof.Machine
end
